-- ==== Sys2Proof/Word.lean ====
section
/-! DEFINITION. The word types of the block: bytes (10_state.md R10), 16-bit addresses and counters
(10_state.md R13, R14, 20_memory.md R31) and the 24-bit command word (30_encoding.md R54). -/

namespace Sys2Proof

/-- An 8-bit value: `A`, `X`, `Y`, a memory cell, a literal (10_state.md R10, 20_memory.md R30). -/
abbrev Byte := BitVec 8

/-- A 16-bit address, the operand field taken whole (20_memory.md R31). -/
abbrev Addr := BitVec 16

/-- The 24-bit command word, a number on a port, with no byte order (30_encoding.md R54). -/
abbrev CommandWord := BitVec 24

end Sys2Proof
end

