-- ==== Sys2Proof/Syntax.lean ====
section
/-! DEFINITION. The abstract commands of the block (30_encoding.md sections 1 to 3): addressing modes, flags,
one constructor of `Instr` per row of spec/opcode_table.json, and the names of the reserved words. -/

namespace Sys2Proof

/-- The closed set of addressing modes (30_encoding.md R53). -/
inductive Mode where
  | immediate
  | absolute
  | zeroPage
  | accumulator
deriving DecidableEq, Repr

/-- The seven flags, in the document's order (10_state.md R15). -/
inductive Flag where
  | carry
  | zero
  | interruptDisable
  | decimal
  | brk
  | overflow
  | negative
deriving DecidableEq, Repr

/-- One constructor per row of the opcode table. A literal is a byte (30_encoding.md R58, R127), an address the
16-bit operand whole (R60), a displacement a signed number (R57, R59). In accumulator mode the operand field is
ignored, every value of it is the same command (R60), so those rows carry no operand. -/
inductive Instr where
  /-- `ADC #n` (41_alu.md R80) -/
  | adcImm (n : Byte)
  /-- `ADC abs a` (41_alu.md R80) -/
  | adcAbs (a : Addr)
  /-- `ADC zp a` (41_alu.md R80) -/
  | adcZp (a : Addr)
  /-- `ADC A`, an unsupported pair (41_alu.md R87) -/
  | adcAcc
  /-- `AND #n` (41_alu.md R82) -/
  | andImm (n : Byte)
  /-- `AND abs a` (41_alu.md R82) -/
  | andAbs (a : Addr)
  /-- `AND zp a` (41_alu.md R82) -/
  | andZp (a : Addr)
  /-- `AND A`, an unsupported pair (41_alu.md R87) -/
  | andAcc
  /-- `ASL #n`, an unsupported pair (41_alu.md R87) -/
  | aslImm (n : Byte)
  /-- `ASL abs a`, an unsupported pair (41_alu.md R87) -/
  | aslAbs (a : Addr)
  /-- `ASL zp a`, an unsupported pair (41_alu.md R87) -/
  | aslZp (a : Addr)
  /-- `ASL A` (41_alu.md R84) -/
  | aslAcc
  /-- `BIT #n`, an unsupported pair (43_bit_compare.md R107) -/
  | bitImm (n : Byte)
  /-- `BIT abs a` (43_bit_compare.md R100) -/
  | bitAbs (a : Addr)
  /-- `BIT zp a` (43_bit_compare.md R100) -/
  | bitZp (a : Addr)
  /-- `BIT A`, an unsupported pair (43_bit_compare.md R107) -/
  | bitAcc
  /-- `BCC d` (42_branch.md R91) -/
  | bcc (d : Int)
  /-- `BCS d` (42_branch.md R92) -/
  | bcs (d : Int)
  /-- `BEQ d` (42_branch.md R93) -/
  | beq (d : Int)
  /-- `BNE d` (42_branch.md R94) -/
  | bne (d : Int)
  /-- `BMI d` (42_branch.md R95) -/
  | bmi (d : Int)
  /-- `BPL d` (42_branch.md R96) -/
  | bpl (d : Int)
  /-- `BVC d` (42_branch.md R97) -/
  | bvc (d : Int)
  /-- `BVS d` (42_branch.md R98) -/
  | bvs (d : Int)
  /-- `CMP a` (43_bit_compare.md R103) -/
  | cmp (a : Addr)
  /-- `CPX a` (43_bit_compare.md R104) -/
  | cpx (a : Addr)
  /-- `CPY a` (43_bit_compare.md R105) -/
  | cpy (a : Addr)
  /-- `CLC` (44_clear_flag.md R110) -/
  | clc
  /-- `CLRF zero` (44_clear_flag.md R114) -/
  | clrfZero
  /-- `CLI` (44_clear_flag.md R112) -/
  | cli
  /-- `CLD` (44_clear_flag.md R111) -/
  | cld
  /-- `CLRF break` (44_clear_flag.md R114) -/
  | clrfBreak
  /-- `CLV` (44_clear_flag.md R113) -/
  | clv
  /-- `CLRF negative` (44_clear_flag.md R114) -/
  | clrfNegative
deriving DecidableEq, Repr

/-- Why a command word is no command: the five classes of 30_encoding.md R62. -/
inductive Reserved where
  /-- item 1: `cw[17:16]` is not 0 -/
  | reservedBits
  /-- item 2: format A, B or F with a `mode` that is not 0 -/
  | modeNotZero
  /-- item 3: format M, `immediate`, with a literal above 255 -/
  | literalAboveByte
  /-- item 4: format F with `opr[15:3]` not 0 -/
  | selectorHighBits
  /-- item 5: format F with selector 7 -/
  | selectorSeven
deriving DecidableEq, Repr

end Sys2Proof
end

