-- ==== Sys2Proof/WellFormed.lean ====
section
/-! DEFINITION. Which terms of `Instr` are commands. The types already hold a literal to a byte, an address to
16 bits and a flag to the seven (30_encoding.md R127); one check is left, the range of a displacement (R59). -/

namespace Sys2Proof

/-- The range of a branch displacement, `signed16` of the operand field (30_encoding.md R59). -/
def displacementInRange (d : Int) : Bool := decide (-32768 ≤ d) && decide (d ≤ 32767)

/-- A term of `Instr` that some command word carries (30_encoding.md R57). -/
def Instr.wellFormed : Instr → Bool
  | .adcImm _ | .adcAbs _ | .adcZp _ | .adcAcc => true
  | .andImm _ | .andAbs _ | .andZp _ | .andAcc => true
  | .aslImm _ | .aslAbs _ | .aslZp _ | .aslAcc => true
  | .bitImm _ | .bitAbs _ | .bitZp _ | .bitAcc => true
  | .bcc d | .bcs d | .beq d | .bne d | .bmi d | .bpl d | .bvc d | .bvs d => displacementInRange d
  | .cmp _ | .cpx _ | .cpy _ => true
  | .clc | .clrfZero | .cli | .cld | .clrfBreak | .clv | .clrfNegative => true

end Sys2Proof
end

