-- ==== Sys2Proof/Decode.lean ====
section
/-! DEFINITION. The command word of 30_encoding.md sections 4 to 6: its fields, the total decoder (R57), the
encoder written from the same tables (R54 to R61), and the match and mask of each opcode-table row. -/

namespace Sys2Proof

/-- `cw[23:20]`, operation select (30_encoding.md R54). -/
def cwOp (cw : CommandWord) : BitVec 4 := cw.extractLsb' 20 4

/-- `cw[19:18]`, addressing mode (30_encoding.md R54). -/
def cwMode (cw : CommandWord) : BitVec 2 := cw.extractLsb' 18 2

/-- `cw[17:16]`, reserved (30_encoding.md R54). -/
def cwRsv (cw : CommandWord) : BitVec 2 := cw.extractLsb' 16 2

/-- `cw[15:0]`, the operand (30_encoding.md R54). -/
def cwOpr (cw : CommandWord) : BitVec 16 := cw.extractLsb' 0 16

/-- The codes of the addressing modes (30_encoding.md R56). -/
def Mode.code : Mode → BitVec 2
  | .immediate => 0b00#2
  | .absolute => 0b01#2
  | .zeroPage => 0b10#2
  | .accumulator => 0b11#2

/-- The flag selectors of format F (30_encoding.md R61). -/
def Flag.selector : Flag → BitVec 3
  | .carry => 0#3
  | .zero => 1#3
  | .interruptDisable => 2#3
  | .decimal => 3#3
  | .brk => 4#3
  | .overflow => 5#3
  | .negative => 6#3

/-- Format M: mode and operand (30_encoding.md R57, R60). The literal of `immediate` must be a byte; `accumulator`
ignores the operand. -/
def decodeFormatM (imm : Byte → Instr) (abs zp : Addr → Instr) (acc : Instr)
    (mode : BitVec 2) (opr : BitVec 16) : Except Reserved Instr :=
  match mode.toNat with
  | 0 => if 255 < opr.toNat then .error .literalAboveByte else .ok (imm (opr.setWidth 8))
  | 1 => .ok (abs opr)
  | 2 => .ok (zp opr)
  | _ => .ok acc

/-- Format A: an address, `mode` 0 (30_encoding.md R57). -/
def decodeFormatA (mk : Addr → Instr) (mode : BitVec 2) (opr : BitVec 16) : Except Reserved Instr :=
  if mode ≠ 0 then .error .modeNotZero else .ok (mk opr)

/-- Format B: a displacement read as two's complement, `mode` 0 (30_encoding.md R57, R59). -/
def decodeFormatB (mk : Int → Instr) (mode : BitVec 2) (opr : BitVec 16) : Except Reserved Instr :=
  if mode ≠ 0 then .error .modeNotZero else .ok (mk opr.toInt)

/-- Format F: a flag selector, `mode` 0, `opr[15:3]` 0, selector 7 reserved (30_encoding.md R57, R61). -/
def decodeFormatF (mode : BitVec 2) (opr : BitVec 16) : Except Reserved Instr :=
  if mode ≠ 0 then .error .modeNotZero
  else if opr.extractLsb' 3 13 ≠ 0 then .error .selectorHighBits
  else
    match (opr.extractLsb' 0 3).toNat with
    | 0 => .ok .clc
    | 1 => .ok .clrfZero
    | 2 => .ok .cli
    | 3 => .ok .cld
    | 4 => .ok .clrfBreak
    | 5 => .ok .clv
    | 6 => .ok .clrfNegative
    | _ => .error .selectorSeven

/-- The operation codes (30_encoding.md R55); all 16 are assigned, the last is format F. -/
def decodeOp (op : BitVec 4) (mode : BitVec 2) (opr : BitVec 16) : Except Reserved Instr :=
  match op.toNat with
  | 0 => decodeFormatM .adcImm .adcAbs .adcZp .adcAcc mode opr
  | 1 => decodeFormatM .andImm .andAbs .andZp .andAcc mode opr
  | 2 => decodeFormatM .aslImm .aslAbs .aslZp .aslAcc mode opr
  | 3 => decodeFormatB .bcc mode opr
  | 4 => decodeFormatB .bcs mode opr
  | 5 => decodeFormatB .beq mode opr
  | 6 => decodeFormatB .bne mode opr
  | 7 => decodeFormatB .bmi mode opr
  | 8 => decodeFormatB .bpl mode opr
  | 9 => decodeFormatB .bvc mode opr
  | 10 => decodeFormatB .bvs mode opr
  | 11 => decodeFormatM .bitImm .bitAbs .bitZp .bitAcc mode opr
  | 12 => decodeFormatA .cmp mode opr
  | 13 => decodeFormatA .cpx mode opr
  | 14 => decodeFormatA .cpy mode opr
  | _ => decodeFormatF mode opr

/-- The total decoder: every 24-bit word is a command or one of the reserved words (30_encoding.md R57, R62). It
looks at the word only. -/
def decode (cw : CommandWord) : Except Reserved Instr :=
  if cwRsv cw ≠ 0 then .error .reservedBits else decodeOp (cwOp cw) (cwMode cw) (cwOpr cw)

/-- A command word from its fields, `rsv` 0 (30_encoding.md R54). -/
def commandWord (op : BitVec 4) (mode : BitVec 2) (opr : BitVec 16) : CommandWord :=
  op ++ mode ++ 0#2 ++ opr

/-- A word of format M in a mode with its operand (30_encoding.md R57). -/
def wordM (op : BitVec 4) (mode : Mode) (opr : BitVec 16) : CommandWord := commandWord op mode.code opr

/-- A word of format A (30_encoding.md R57). -/
def wordA (op : BitVec 4) (a : Addr) : CommandWord := commandWord op 0#2 a

/-- A word of format B, the displacement modulo 65536 (30_encoding.md R59, R65). -/
def wordB (op : BitVec 4) (d : Int) : CommandWord := commandWord op 0#2 (BitVec.ofInt 16 d)

/-- A word of format F (30_encoding.md R57, R61). -/
def wordF (f : Flag) : CommandWord := commandWord 15#4 0#2 (f.selector.setWidth 16)

/-- The command word of a command (30_encoding.md R65); an ignored operand field is written as 0. -/
def encode : Instr → CommandWord
  | .adcImm n => wordM 0#4 .immediate (n.setWidth 16)
  | .adcAbs a => wordM 0#4 .absolute a
  | .adcZp a => wordM 0#4 .zeroPage a
  | .adcAcc => wordM 0#4 .accumulator 0#16
  | .andImm n => wordM 1#4 .immediate (n.setWidth 16)
  | .andAbs a => wordM 1#4 .absolute a
  | .andZp a => wordM 1#4 .zeroPage a
  | .andAcc => wordM 1#4 .accumulator 0#16
  | .aslImm n => wordM 2#4 .immediate (n.setWidth 16)
  | .aslAbs a => wordM 2#4 .absolute a
  | .aslZp a => wordM 2#4 .zeroPage a
  | .aslAcc => wordM 2#4 .accumulator 0#16
  | .bitImm n => wordM 11#4 .immediate (n.setWidth 16)
  | .bitAbs a => wordM 11#4 .absolute a
  | .bitZp a => wordM 11#4 .zeroPage a
  | .bitAcc => wordM 11#4 .accumulator 0#16
  | .bcc d => wordB 3#4 d
  | .bcs d => wordB 4#4 d
  | .beq d => wordB 5#4 d
  | .bne d => wordB 6#4 d
  | .bmi d => wordB 7#4 d
  | .bpl d => wordB 8#4 d
  | .bvc d => wordB 9#4 d
  | .bvs d => wordB 10#4 d
  | .cmp a => wordA 12#4 a
  | .cpx a => wordA 13#4 a
  | .cpy a => wordA 14#4 a
  | .clc => wordF .carry
  | .clrfZero => wordF .zero
  | .cli => wordF .interruptDisable
  | .cld => wordF .decimal
  | .clrfBreak => wordF .brk
  | .clv => wordF .overflow
  | .clrfNegative => wordF .negative

/-- The match and mask of the instruction's row of spec/opcode_table.json. -/
def opcodeRow : Instr → CommandWord × CommandWord
  | .adcImm _ => (0x000000#24, 0xFFFF00#24)
  | .adcAbs _ => (0x040000#24, 0xFF0000#24)
  | .adcZp _ => (0x080000#24, 0xFF0000#24)
  | .adcAcc => (0x0C0000#24, 0xFF0000#24)
  | .andImm _ => (0x100000#24, 0xFFFF00#24)
  | .andAbs _ => (0x140000#24, 0xFF0000#24)
  | .andZp _ => (0x180000#24, 0xFF0000#24)
  | .andAcc => (0x1C0000#24, 0xFF0000#24)
  | .aslImm _ => (0x200000#24, 0xFFFF00#24)
  | .aslAbs _ => (0x240000#24, 0xFF0000#24)
  | .aslZp _ => (0x280000#24, 0xFF0000#24)
  | .aslAcc => (0x2C0000#24, 0xFF0000#24)
  | .bitImm _ => (0xB00000#24, 0xFFFF00#24)
  | .bitAbs _ => (0xB40000#24, 0xFF0000#24)
  | .bitZp _ => (0xB80000#24, 0xFF0000#24)
  | .bitAcc => (0xBC0000#24, 0xFF0000#24)
  | .bcc _ => (0x300000#24, 0xFF0000#24)
  | .bcs _ => (0x400000#24, 0xFF0000#24)
  | .beq _ => (0x500000#24, 0xFF0000#24)
  | .bne _ => (0x600000#24, 0xFF0000#24)
  | .bmi _ => (0x700000#24, 0xFF0000#24)
  | .bpl _ => (0x800000#24, 0xFF0000#24)
  | .bvc _ => (0x900000#24, 0xFF0000#24)
  | .bvs _ => (0xA00000#24, 0xFF0000#24)
  | .cmp _ => (0xC00000#24, 0xFF0000#24)
  | .cpx _ => (0xD00000#24, 0xFF0000#24)
  | .cpy _ => (0xE00000#24, 0xFF0000#24)
  | .clc => (0xF00000#24, 0xFFFFFF#24)
  | .clrfZero => (0xF00001#24, 0xFFFFFF#24)
  | .cli => (0xF00002#24, 0xFFFFFF#24)
  | .cld => (0xF00003#24, 0xFFFFFF#24)
  | .clrfBreak => (0xF00004#24, 0xFFFFFF#24)
  | .clv => (0xF00005#24, 0xFFFFFF#24)
  | .clrfNegative => (0xF00006#24, 0xFFFFFF#24)

/-- The match and mask of the 16 rows of format M (spec/opcode_table.json). -/
def opcodeRowsM : List (CommandWord × CommandWord) :=
  [(0x000000#24, 0xFFFF00#24), (0x040000#24, 0xFF0000#24), (0x080000#24, 0xFF0000#24), (0x0C0000#24, 0xFF0000#24),
   (0x100000#24, 0xFFFF00#24), (0x140000#24, 0xFF0000#24), (0x180000#24, 0xFF0000#24), (0x1C0000#24, 0xFF0000#24),
   (0x200000#24, 0xFFFF00#24), (0x240000#24, 0xFF0000#24), (0x280000#24, 0xFF0000#24), (0x2C0000#24, 0xFF0000#24),
   (0xB00000#24, 0xFFFF00#24), (0xB40000#24, 0xFF0000#24), (0xB80000#24, 0xFF0000#24), (0xBC0000#24, 0xFF0000#24)]

/-- The match and mask of the 8 rows of format B and the 3 of format A (spec/opcode_table.json). -/
def opcodeRowsBA : List (CommandWord × CommandWord) :=
  [(0x300000#24, 0xFF0000#24), (0x400000#24, 0xFF0000#24), (0x500000#24, 0xFF0000#24), (0x600000#24, 0xFF0000#24),
   (0x700000#24, 0xFF0000#24), (0x800000#24, 0xFF0000#24), (0x900000#24, 0xFF0000#24), (0xA00000#24, 0xFF0000#24),
   (0xC00000#24, 0xFF0000#24), (0xD00000#24, 0xFF0000#24), (0xE00000#24, 0xFF0000#24)]

/-- The match and mask of the 7 rows of format F (spec/opcode_table.json). -/
def opcodeRowsF : List (CommandWord × CommandWord) :=
  [(0xF00000#24, 0xFFFFFF#24), (0xF00001#24, 0xFFFFFF#24), (0xF00002#24, 0xFFFFFF#24), (0xF00003#24, 0xFFFFFF#24),
   (0xF00004#24, 0xFFFFFF#24), (0xF00005#24, 0xFFFFFF#24), (0xF00006#24, 0xFFFFFF#24)]

/-- The 34 rows of spec/opcode_table.json as (match, mask), in the table's order. -/
def opcodeRows : List (CommandWord × CommandWord) := opcodeRowsM ++ opcodeRowsBA ++ opcodeRowsF

/-- A word matches a row when its masked bits are the row's (30_encoding.md R62). -/
def rowMatches (cw : CommandWord) (row : CommandWord × CommandWord) : Bool := cw &&& row.2 == row.1

/-- The command word whose bits are `w`, numbered as the opcode table numbers them: one 24-bit number (R54), the bits
above `nbits` zero. -/
def tableWord (nbits w : Nat) : CommandWord := BitVec.ofNat 24 (w % 2 ^ nbits)

/-- What the decoder reads from a word given as the opcode table gives it; none where it refuses. -/
def decodeTableWord (nbits w : Nat) : Option Instr :=
  match decode (tableWord nbits w) with
  | .ok i => some i
  | .error _ => none

end Sys2Proof
end

