-- ==== Sys2Proof/Config.lean ====
section
/-! DEFINITION. What the spec leaves to the machine's owner, with the values the model names for reset.
The block has no free value: every operation is a deterministic function of state, memory and command
(93_implementation_defined.md section 1). -/

namespace Sys2Proof.Config

/-- What a memory cell that nothing has written holds. DESIGN CHOICE (log entry 3): the spec leaves the
initial memory `M0` open (70_reset_and_hazards.md R141). Unsafe: a proof about unlisted cells could lean on it. -/
def unlistedByte : Byte := 0x00#8

/-- MEM_LEN at reset. DESIGN CHOICE (log entry 4): the spec leaves MEM_LEN open between 0 and 65536
(00_scope.md R4). Unsafe when a statement is about `State.reset`. -/
def resetMemLen : Fin 65537 := 65536

end Sys2Proof.Config
end

