-- ==== Sys2Proof/Machine/State.lean ====
section
/-! DEFINITION. The state of the machine as plain data: the block's record (10_state.md section 1), and the host's
side of the command port (00_scope.md R3). Faults, refusals and the state after reset. -/

namespace Sys2Proof.Machine

/-- The status register: seven independent booleans, in the document's order (10_state.md R15, R16, R22). -/
structure Flags where
  /-- `C`, carry -/
  c : Bool
  /-- `Z`, zero -/
  z : Bool
  /-- `I`, interrupt_disable: no operation reads it (10_state.md R18) -/
  i : Bool
  /-- `D`, decimal: no operation reads it (10_state.md R18) -/
  d : Bool
  /-- `B`, break: no operation reads or writes it (10_state.md R18) -/
  b : Bool
  /-- `V`, overflow -/
  v : Bool
  /-- `N`, negative -/
  n : Bool
deriving DecidableEq, Repr

/-- The memory the host attaches (20_memory.md R30): its length MEM_LEN, 0 to 65536 (00_scope.md R4), and its cells
in canonical form, addresses rising, none equal to what an unlisted cell holds (`Memory.wf` in Ops). -/
structure Memory where
  len : Fin 65537
  cells : List Host.Cell
deriving DecidableEq, Repr

/-- The status output of a command (60_exceptions.md R123): the closed set of four outcomes. -/
inductive Status where
  | ok
  | unsupportedMode (m : Mode)
  | unsupportedClearFlag (f : Flag)
  | outOfRange (a : Addr)
deriving DecidableEq, Repr

/-- A write the host may make between two commands (10_state.md R25, 20_memory.md R44): any field, within its width. -/
inductive HostWrite where
  | accumulator (v : Byte)
  | indexX (v : Byte)
  | indexY (v : Byte)
  | programCounter (v : BitVec 16)
  | stackPointer (v : BitVec 16)
  | flag (f : Flag) (v : Bool)
  | cell (a : Addr) (v : Byte)
deriving DecidableEq, Repr

/-- A move of the host (70_reset_and_hazards.md R144): it issues a command word, or writes a field between commands. -/
inductive HostMove where
  | issue (cw : CommandWord)
  | write (w : HostWrite)
deriving DecidableEq, Repr

/-- What the host does after an error: its own policy (60_exceptions.md R129). -/
inductive ErrorPolicy where
  /-- the run stops at the first error, the policy R129 fixes for a run -/
  | stop
  /-- the host issues its next command, which the block accepts "as if the failed one had never been issued" -/
  | goOn
deriving DecidableEq, Repr

/-- The host's side of the port (log entries 2 and 5): not state of the block, and no operation reads it. -/
structure HostSide where
  /-- the moves the host has still to make, the next one first (92_eei_decisions.md D16) -/
  moves : List HostMove
  /-- what it does after an error (60_exceptions.md R129) -/
  onError : ErrorPolicy
  /-- the statuses it has been handed, newest first (60_exceptions.md R123) -/
  replies : List Status
deriving DecidableEq, Repr

/-- The whole state: the block's record (10_state.md section 1) and the host's side of the port. -/
structure State where
  /-- `A`, the accumulator (10_state.md R10) -/
  a : Byte
  /-- `X`, index register (10_state.md R11) -/
  x : Byte
  /-- `Y`, index register (10_state.md R12) -/
  y : Byte
  /-- `PC`, the program counter (10_state.md R13) -/
  pc : BitVec 16
  /-- `SP`, the stack pointer, 16 bits, used by nothing (10_state.md R14) -/
  sp : BitVec 16
  /-- the status register (10_state.md R15) -/
  flags : Flags
  /-- `M` and MEM_LEN (20_memory.md R30) -/
  mem : Memory
  /-- the host's side of the port (00_scope.md R3) -/
  host : HostSide
deriving DecidableEq, Repr

/-- The three errors of the block (60_exceptions.md R120 to R122). Each is the spec's own, precise and with the state
unchanged (R126), so each is safe. -/
inductive Fault where
  /-- R120. Raised by ADC A, AND A, ASL in the other three modes, BIT #n and BIT A. Safe: the spec's own error. -/
  | unsupportedMode (m : Mode)
  /-- R121. Raised by CLRF zero, CLRF break, CLRF negative. Safe: the spec's own error. -/
  | unsupportedClearFlag (f : Flag)
  /-- R122. Raised by a memory read at or beyond MEM_LEN. Safe: the spec's own error. -/
  | outOfRange (a : Addr)
deriving DecidableEq, Repr

/-- What is no command of the block. -/
inductive Refusal where
  /-- An instruction with no meaning yet: no arm of exec answers it. Safe. -/
  | notModelled (mnemonic : String)
  /-- A reserved command word, refused by the decoder (30_encoding.md R62, 60_exceptions.md R127). Raised by issuing
  a command word. Safe: the spec's own refusal. -/
  | reservedWord (why : Reserved)
  /-- A host write to a cell that does not exist, at or beyond MEM_LEN (20_memory.md R44; log entry 6). Raised by the
  host's write of a cell. Safe: the spec gives the host no such move. -/
  | noSuchCell (a : Addr)
deriving DecidableEq, Repr

/-- The state the model starts from. The spec gives no reset value for any field (70_reset_and_hazards.md R140, R141):
every value here is a DESIGN CHOICE (log entries 1 to 5). Unsafe: a proof about this state leans on them; the
statements quantify over every state instead. -/
def State.reset : State where
  a := 0x00#8
  x := 0x00#8
  y := 0x00#8
  pc := 0x0000#16
  sp := 0x0000#16
  flags := ⟨false, false, false, false, false, false, false⟩
  mem := ⟨Config.resetMemLen, []⟩
  host := ⟨[], .stop, []⟩

end Sys2Proof.Machine
end

