-- ==== Sys2Proof/Machine/Ops.lean ====
section
/-! DEFINITION. The named operations over registers, flags and memory, raising an error, and the host's moves
between commands. -/

namespace Sys2Proof.Machine

/-! ### Registers: one named update per field (10_state.md section 1) -/

/-- `A <- v` -/
def State.setA (s : State) (v : Byte) : State := { s with a := v }

/-- `X <- v`, by the host only (10_state.md R11) -/
def State.setX (s : State) (v : Byte) : State := { s with x := v }

/-- `Y <- v`, by the host only (10_state.md R12) -/
def State.setY (s : State) (v : Byte) : State := { s with y := v }

/-- `PC <- v` (10_state.md R13) -/
def State.setPc (s : State) (v : BitVec 16) : State := { s with pc := v }

/-- `SP <- v`, by the host only (10_state.md R14) -/
def State.setSp (s : State) (v : BitVec 16) : State := { s with sp := v }

/-- The flags of the status register, written together (60_exceptions.md R126). -/
def State.setFlags (s : State) (f : Flags) : State := { s with flags := f }

/-- The memory, by the host only (20_memory.md R35, R44) -/
def State.setMem (s : State) (m : Memory) : State := { s with mem := m }

/-- The host's side of the port. -/
def State.setHost (s : State) (h : HostSide) : State := { s with host := h }

/-! ### Flags -/

/-- The flag's value (10_state.md R15). -/
def Flags.get (fl : Flags) : Flag → Bool
  | .carry => fl.c
  | .zero => fl.z
  | .interruptDisable => fl.i
  | .decimal => fl.d
  | .brk => fl.b
  | .overflow => fl.v
  | .negative => fl.n

/-- One flag written, the six others kept (10_state.md R16). -/
def Flags.put (fl : Flags) (f : Flag) (v : Bool) : Flags :=
  match f with
  | .carry => { fl with c := v }
  | .zero => { fl with z := v }
  | .interruptDisable => { fl with i := v }
  | .decimal => { fl with d := v }
  | .brk => { fl with b := v }
  | .overflow => { fl with v := v }
  | .negative => { fl with n := v }

/-! ### Memory -/

/-- The byte a list of cells gives an address; an unlisted one holds `Config.unlistedByte` (log entry 3). -/
def lookupCell : List Host.Cell → Nat → Byte
  | [], _ => Config.unlistedByte
  | (k, v) :: rest, a => if k = a then v else lookupCell rest a

/-- A cell put in front of a canonical list, unless it holds what an unlisted cell holds. -/
def consCell (a : Nat) (b : Byte) (rest : List Host.Cell) : List Host.Cell :=
  if b = Config.unlistedByte then rest else (a, b) :: rest

/-- A byte written into a canonical list of cells, the form kept. -/
def insertCell : List Host.Cell → Nat → Byte → List Host.Cell
  | [], a, b => consCell a b []
  | (k, v) :: rest, a, b =>
    if a < k then consCell a b ((k, v) :: rest)
    else if a = k then consCell a b rest
    else (k, v) :: insertCell rest a b

/-- Canonical cells: addresses strictly rising from `lo`, below `len`, no cell equal to what an unlisted one holds. -/
def cellsWf (len lo : Nat) : List Host.Cell → Bool
  | [] => true
  | (k, v) :: rest => decide (lo ≤ k) && decide (k < len) && decide (v ≠ Config.unlistedByte) && cellsWf len (k + 1) rest

/-- The canonical form of a memory, with every listed cell below MEM_LEN (20_memory.md R30). -/
def Memory.wf (m : Memory) : Bool := cellsWf m.len.val 0 m.cells

/-- The byte of cell `a`, `M[a]` (20_memory.md R30). -/
def Memory.byteAt (m : Memory) (a : Nat) : Byte := lookupCell m.cells a

/-- Cell `a` exists (20_memory.md R30, R32). -/
def Memory.has (m : Memory) (a : Addr) : Bool := decide (a.toNat < m.len.val)

/-- The host's write of a cell that exists (20_memory.md R44). MEM_LEN is kept. -/
def Memory.setByte (m : Memory) (a : Nat) (v : Byte) : Memory := { m with cells := insertCell m.cells a v }

/-- `MemRead(addr, 1)`, the block's only memory primitive (20_memory.md R32, R33). -/
def memRead (s : State) (a : Addr) : Except Fault Byte :=
  if s.mem.has a then .ok (s.mem.byteAt a.toNat) else .error (.outOfRange a)

/-! ### Errors -/

/-- Error entry (60_exceptions.md R126, R128): nothing is saved, no mode changes, control goes nowhere; the command
ends with the error and no write of it takes place. There is no return from it (R129): see `conclude` in Port. -/
def raiseError (e : Fault) : Host.Outcome State Fault Refusal := .fault e

/-- The status an error is handed to the host as (60_exceptions.md R123). -/
def Fault.status : Fault → Status
  | .unsupportedMode m => .unsupportedMode m
  | .unsupportedClearFlag f => .unsupportedClearFlag f
  | .outOfRange a => .outOfRange a

/-- The status codes (60_exceptions.md R123). -/
def Status.code : Status → BitVec 2
  | .ok => 0#2
  | .unsupportedMode _ => 1#2
  | .unsupportedClearFlag _ => 2#2
  | .outOfRange _ => 3#2

/-- The payload beside the code (60_exceptions.md R123): the 2-bit mode, the 3-bit selector, the 16-bit address. -/
def Status.payload : Status → Option Nat
  | .ok => none
  | .unsupportedMode m => some m.code.toNat
  | .unsupportedClearFlag f => some f.selector.toNat
  | .outOfRange a => some a.toNat

/-! ### The host between commands -/

/-- The host's remaining moves replaced. -/
def State.setMoves (s : State) (ms : List HostMove) : State := s.setHost { s.host with moves := ms }

/-- The host is handed a status (60_exceptions.md R123). -/
def State.reply (s : State) (st : Status) : State := s.setHost { s.host with replies := st :: s.host.replies }

/-- A host write between two commands (10_state.md R25, 20_memory.md R44): the field takes the value, nothing else
changes. A cell at or beyond MEM_LEN does not exist (log entry 6). -/
def hostWrite (w : HostWrite) (s : State) : Host.Outcome State Fault Refusal :=
  match w with
  | .accumulator v => .next (s.setA v)
  | .indexX v => .next (s.setX v)
  | .indexY v => .next (s.setY v)
  | .programCounter v => .next (s.setPc v)
  | .stackPointer v => .next (s.setSp v)
  | .flag f v => .next (s.setFlags (s.flags.put f v))
  | .cell a v => if s.mem.has a then .next (s.setMem (s.mem.setByte a.toNat v)) else .refused (.noSuchCell a)

end Sys2Proof.Machine
end

