-- ==== Sys2Proof/Machine/Flags.lean ====
section
/-! DEFINITION. The arithmetic of the block and every flag it computes (41_alu.md, 43_bit_compare.md). Intermediate
values are exact integers, reduced at the end (41_alu.md R86). -/

namespace Sys2Proof.Machine

/-- `sign_bit(v)` and `neg(r)`: bit 7 (00_scope.md section 5, 41_alu.md). -/
def signBit (v : Byte) : Bool := v.getLsbD 7

/-- `zero(r)` (41_alu.md). -/
def isZero (r : Byte) : Bool := decide (r = 0x00#8)

/-- ADC's exact sum, 0 to 510: the carry flag is not added (41_alu.md R80). -/
def addRaw (a v : Byte) : Nat := a.toNat + v.toNat

/-- ADC's result, the sum modulo 256 (41_alu.md R80). -/
def addResult (a v : Byte) : Byte := BitVec.ofNat 8 (addRaw a v)

/-- ADC's carry, the ninth bit (41_alu.md R80). -/
def addCarry (a v : Byte) : Bool := decide (256 ≤ addRaw a v)

/-- ADC's overflow (41_alu.md R80): the operands share a sign and the result's sign differs. -/
def addOverflow (a v : Byte) : Bool :=
  (signBit a == signBit v) && (signBit a != signBit (addResult a v))

/-- The flags after ADC: C, V, N, Z written (41_alu.md R80). -/
def Flags.afterAdd (fl : Flags) (a v : Byte) : Flags :=
  { fl with
    c := addCarry a v
    v := addOverflow a v
    n := signBit (addResult a v)
    z := isZero (addResult a v) }

/-- The flags after AND: N, Z written from the result (41_alu.md R82). -/
def Flags.afterAnd (fl : Flags) (r : Byte) : Flags := { fl with n := signBit r, z := isZero r }

/-- ASL's exact value, `A << 1`, 0 to 510 (41_alu.md R84). -/
def shiftRaw (a : Byte) : Nat := a.toNat <<< 1

/-- ASL's result, modulo 256 (41_alu.md R84). -/
def shiftResult (a : Byte) : Byte := BitVec.ofNat 8 (shiftRaw a)

/-- ASL's carry, bit 8 of the exact value (41_alu.md R84). -/
def shiftCarry (a : Byte) : Bool := (shiftRaw a).testBit 8

/-- The flags after ASL: C, N, Z written (41_alu.md R84). -/
def Flags.afterShift (fl : Flags) (a : Byte) : Flags :=
  { fl with c := shiftCarry a, n := signBit (shiftResult a), z := isZero (shiftResult a) }

/-- The flags after BIT: Z from the AND, N and V from bits 7 and 6 of the memory byte (43_bit_compare.md R100). -/
def Flags.afterBit (fl : Flags) (a m : Byte) : Flags :=
  { fl with z := isZero (a &&& m), n := m.getLsbD 7, v := m.getLsbD 6 }

/-- Compare's exact difference, -255 to 255 (43_bit_compare.md R102). -/
def compareDiff (reg m : Byte) : Int := (reg.toNat : Int) - (m.toNat : Int)

/-- The flags after a compare: C strictly greater, Z equal, N the sign of the exact difference
(43_bit_compare.md R102, R106). -/
def Flags.afterCompare (fl : Flags) (reg m : Byte) : Flags :=
  { fl with
    c := decide (0 < compareDiff reg m)
    z := decide (compareDiff reg m = 0)
    n := decide (compareDiff reg m < 0) }

end Sys2Proof.Machine
end

