-- ==== Sys2Proof/Machine/Operands.lean ====
section
/-! DEFINITION. The addressing-mode multiplexer (40_addressing.md) and the two shapes in which an operation takes its
input byte: through the multiplexer (ADC, AND, ASL, BIT) or by a memory read (compare). -/

namespace Sys2Proof.Machine

/-- The mode and operand of a command of format M, the multiplexer's inputs (40_addressing.md R70). -/
inductive Source where
  /-- a literal byte (R71) -/
  | immediate (n : Byte)
  /-- an address (R72) -/
  | absolute (a : Addr)
  /-- an address, all 16 bits (R73) -/
  | zeroPage (a : Addr)
  /-- the accumulator, the operand field ignored (R74) -/
  | accumulator
deriving DecidableEq, Repr

/-- The mode tag of a source (30_encoding.md R53). -/
def Source.mode : Source → Mode
  | .immediate _ => .immediate
  | .absolute _ => .absolute
  | .zeroPage _ => .zeroPage
  | .accumulator => .accumulator

/-- What the multiplexer produces (40_addressing.md R75). -/
inductive Resolved where
  | value (v : Byte)
  | useAccumulator
deriving DecidableEq, Repr

/-- The byte an operation works on: the effective value, or `A` itself (40_addressing.md R74). -/
def Resolved.input (r : Resolved) (s : State) : Byte :=
  match r with
  | .value v => v
  | .useAccumulator => s.a

/-- The four modes of the multiplexer (40_addressing.md R71 to R74); zero_page is absolute, with no truncation. -/
def fetchSource (src : Source) (s : State) : Except Fault Resolved :=
  match src with
  | .immediate n => .ok (.value n)
  | .absolute a => (memRead s a).map .value
  | .zeroPage a => (memRead s a).map .value
  | .accumulator => .ok .useAccumulator

/-- The multiplexer (40_addressing.md R75): the mode check first, before any memory access (R76). `supported` is the
operation's mode set `S`. -/
def resolve (supported : List Mode) (src : Source) (s : State) : Except Fault Resolved :=
  if src.mode ∈ supported then fetchSource src s else .error (.unsupportedMode src.mode)

/-- The modes of ADC and AND (30_encoding.md R63). -/
def aluModes : List Mode := [.immediate, .absolute, .zeroPage]

/-- The mode of ASL (30_encoding.md R63). -/
def shiftModes : List Mode := [.accumulator]

/-- The modes of BIT (30_encoding.md R63, 43_bit_compare.md R107). -/
def bitModes : List Mode := [.absolute, .zeroPage]

/-- An operation of format M: resolve to the end, then compute and write together (40_addressing.md R75,
60_exceptions.md R125, R126). -/
def withOperand (supported : List Mode) (src : Source) (s : State) (write : Byte → State) :
    Host.Outcome State Fault Refusal :=
  match resolve supported src s with
  | .error e => raiseError e
  | .ok r => .next (write (r.input s))

/-- An operation of format A: the memory byte is always read, there is no mode (43_bit_compare.md R102). -/
def withMemory (a : Addr) (s : State) (write : Byte → State) : Host.Outcome State Fault Refusal :=
  match memRead s a with
  | .error e => raiseError e
  | .ok m => .next (write m)

end Sys2Proof.Machine
end

