-- ==== Sys2Proof/Machine/Alu.lean ====
section
/-! DEFINITION. ADC, AND, ASL (41_alu.md): one shared operation each, and the meaning of each opcode-table row. -/

namespace Sys2Proof.Machine

/-- ADC's writes: A, C, V, N, Z (41_alu.md R80). -/
def addInto (s : State) (v : Byte) : State :=
  (s.setA (addResult s.a v)).setFlags (s.flags.afterAdd s.a v)

/-- AND's writes: A, N, Z (41_alu.md R82). -/
def andInto (s : State) (v : Byte) : State :=
  (s.setA (s.a &&& v)).setFlags (s.flags.afterAnd (s.a &&& v))

/-- ASL's writes: A, C, N, Z, from the input byte, which is A (41_alu.md R84). -/
def shiftInto (s : State) (v : Byte) : State :=
  (s.setA (shiftResult v)).setFlags (s.flags.afterShift v)

/-- ADC from any source (41_alu.md R80). -/
def adc (src : Source) (s : State) : Host.Outcome State Fault Refusal := withOperand aluModes src s (addInto s)

/-- AND from any source (41_alu.md R82). -/
def logicalAnd (src : Source) (s : State) : Host.Outcome State Fault Refusal := withOperand aluModes src s (andInto s)

/-- ASL from any source (41_alu.md R84). -/
def asl (src : Source) (s : State) : Host.Outcome State Fault Refusal := withOperand shiftModes src s (shiftInto s)

/-- `ADC #n` (41_alu.md R80) -/
def execAdcImm (n : Byte) (s : State) : Host.Outcome State Fault Refusal := adc (.immediate n) s

/-- `ADC abs a` (41_alu.md R80) -/
def execAdcAbs (a : Addr) (s : State) : Host.Outcome State Fault Refusal := adc (.absolute a) s

/-- `ADC zp a` (41_alu.md R80, 40_addressing.md R73) -/
def execAdcZp (a : Addr) (s : State) : Host.Outcome State Fault Refusal := adc (.zeroPage a) s

/-- `ADC A`: raises UnsupportedMode (41_alu.md R87) -/
def execAdcAcc (s : State) : Host.Outcome State Fault Refusal := adc .accumulator s

/-- `AND #n` (41_alu.md R82) -/
def execAndImm (n : Byte) (s : State) : Host.Outcome State Fault Refusal := logicalAnd (.immediate n) s

/-- `AND abs a` (41_alu.md R82) -/
def execAndAbs (a : Addr) (s : State) : Host.Outcome State Fault Refusal := logicalAnd (.absolute a) s

/-- `AND zp a` (41_alu.md R82, 40_addressing.md R73) -/
def execAndZp (a : Addr) (s : State) : Host.Outcome State Fault Refusal := logicalAnd (.zeroPage a) s

/-- `AND A`: raises UnsupportedMode (41_alu.md R87) -/
def execAndAcc (s : State) : Host.Outcome State Fault Refusal := logicalAnd .accumulator s

/-- `ASL #n`: raises UnsupportedMode (41_alu.md R87) -/
def execAslImm (n : Byte) (s : State) : Host.Outcome State Fault Refusal := asl (.immediate n) s

/-- `ASL abs a`: raises UnsupportedMode, with no memory access (41_alu.md R87, 40_addressing.md R76) -/
def execAslAbs (a : Addr) (s : State) : Host.Outcome State Fault Refusal := asl (.absolute a) s

/-- `ASL zp a`: raises UnsupportedMode, with no memory access (41_alu.md R87, 40_addressing.md R76) -/
def execAslZp (a : Addr) (s : State) : Host.Outcome State Fault Refusal := asl (.zeroPage a) s

/-- `ASL A` (41_alu.md R84) -/
def execAslAcc (s : State) : Host.Outcome State Fault Refusal := asl .accumulator s

end Sys2Proof.Machine
end

