-- ==== Sys2Proof/Machine/BitCompare.lean ====
section
/-! DEFINITION. BIT, CMP, CPX, CPY (43_bit_compare.md): flags from a register and a memory byte, no register written. -/

namespace Sys2Proof.Machine

/-- BIT's writes: Z, N, V (43_bit_compare.md R100). -/
def testInto (s : State) (m : Byte) : State := s.setFlags (s.flags.afterBit s.a m)

/-- BIT from any source (43_bit_compare.md R100, R107). -/
def bitTest (src : Source) (s : State) : Host.Outcome State Fault Refusal := withOperand bitModes src s (testInto s)

/-- Compare's writes: C, Z, N (43_bit_compare.md R102). -/
def compareInto (s : State) (reg m : Byte) : State := s.setFlags (s.flags.afterCompare reg m)

/-- Compare of a register with a memory byte (43_bit_compare.md R102). -/
def compareWith (reg : Byte) (a : Addr) (s : State) : Host.Outcome State Fault Refusal :=
  withMemory a s (compareInto s reg)

/-- `BIT #n`: raises UnsupportedMode (43_bit_compare.md R107) -/
def execBitImm (n : Byte) (s : State) : Host.Outcome State Fault Refusal := bitTest (.immediate n) s

/-- `BIT abs a` (43_bit_compare.md R100) -/
def execBitAbs (a : Addr) (s : State) : Host.Outcome State Fault Refusal := bitTest (.absolute a) s

/-- `BIT zp a` (43_bit_compare.md R100, 40_addressing.md R73) -/
def execBitZp (a : Addr) (s : State) : Host.Outcome State Fault Refusal := bitTest (.zeroPage a) s

/-- `BIT A`: raises UnsupportedMode (43_bit_compare.md R107) -/
def execBitAcc (s : State) : Host.Outcome State Fault Refusal := bitTest .accumulator s

/-- `CMP a` (43_bit_compare.md R103) -/
def execCmp (a : Addr) (s : State) : Host.Outcome State Fault Refusal := compareWith s.a a s

/-- `CPX a` (43_bit_compare.md R104) -/
def execCpx (a : Addr) (s : State) : Host.Outcome State Fault Refusal := compareWith s.x a s

/-- `CPY a` (43_bit_compare.md R105) -/
def execCpy (a : Addr) (s : State) : Host.Outcome State Fault Refusal := compareWith s.y a s

end Sys2Proof.Machine
end

