-- ==== Sys2Proof/Machine/Branch.lean ====
section
/-! DEFINITION. The eight branches (42_branch.md): one common rule (R90), eight predicates (R91 to R98). -/

namespace Sys2Proof.Machine

/-- The branch target `(PC + d) mod 65536`, from PC as it stands (42_branch.md R90). -/
def branchTarget (pc : BitVec 16) (d : Int) : BitVec 16 := BitVec.ofInt 16 ((pc.toNat : Int) + d)

/-- The common rule (42_branch.md R90): PC written only when the predicate holds; no flag, no error. -/
def branchWhen (taken : Bool) (d : Int) (s : State) : Host.Outcome State Fault Refusal :=
  .next (if taken then s.setPc (branchTarget s.pc d) else s)

/-- BCC: not carry (42_branch.md R91) -/
def execBcc (d : Int) (s : State) : Host.Outcome State Fault Refusal := branchWhen (!s.flags.c) d s

/-- BCS: carry (42_branch.md R92) -/
def execBcs (d : Int) (s : State) : Host.Outcome State Fault Refusal := branchWhen s.flags.c d s

/-- BEQ: zero (42_branch.md R93) -/
def execBeq (d : Int) (s : State) : Host.Outcome State Fault Refusal := branchWhen s.flags.z d s

/-- BNE: not zero (42_branch.md R94) -/
def execBne (d : Int) (s : State) : Host.Outcome State Fault Refusal := branchWhen (!s.flags.z) d s

/-- BMI: negative (42_branch.md R95) -/
def execBmi (d : Int) (s : State) : Host.Outcome State Fault Refusal := branchWhen s.flags.n d s

/-- BPL: not negative (42_branch.md R96) -/
def execBpl (d : Int) (s : State) : Host.Outcome State Fault Refusal := branchWhen (!s.flags.n) d s

/-- BVC: not overflow (42_branch.md R97) -/
def execBvc (d : Int) (s : State) : Host.Outcome State Fault Refusal := branchWhen (!s.flags.v) d s

/-- BVS: overflow (42_branch.md R98) -/
def execBvs (d : Int) (s : State) : Host.Outcome State Fault Refusal := branchWhen s.flags.v d s

end Sys2Proof.Machine
end

