-- ==== Sys2Proof/Machine/ClearFlag.lean ====
section
/-! DEFINITION. The clear-flag family (44_clear_flag.md): the generic clear (R114) and its seven words. -/

namespace Sys2Proof.Machine

/-- The flags the generic clear accepts (44_clear_flag.md R114). -/
def clearable : Flag → Bool
  | .carry => true
  | .zero => false
  | .interruptDisable => true
  | .decimal => true
  | .brk => false
  | .overflow => true
  | .negative => false

/-- `clear_flag(flag)` (44_clear_flag.md R114): one flag false, or UnsupportedClearFlag with nothing changed. -/
def clearFlag (f : Flag) (s : State) : Host.Outcome State Fault Refusal :=
  if clearable f then .next (s.setFlags (s.flags.put f false)) else raiseError (.unsupportedClearFlag f)

/-- CLC (44_clear_flag.md R110) -/
def execClc (s : State) : Host.Outcome State Fault Refusal := clearFlag .carry s

/-- `CLRF zero`: raises UnsupportedClearFlag (44_clear_flag.md R114) -/
def execClrfZero (s : State) : Host.Outcome State Fault Refusal := clearFlag .zero s

/-- CLI (44_clear_flag.md R112) -/
def execCli (s : State) : Host.Outcome State Fault Refusal := clearFlag .interruptDisable s

/-- CLD (44_clear_flag.md R111) -/
def execCld (s : State) : Host.Outcome State Fault Refusal := clearFlag .decimal s

/-- `CLRF break`: raises UnsupportedClearFlag (44_clear_flag.md R114) -/
def execClrfBreak (s : State) : Host.Outcome State Fault Refusal := clearFlag .brk s

/-- CLV (44_clear_flag.md R113) -/
def execClv (s : State) : Host.Outcome State Fault Refusal := clearFlag .overflow s

/-- `CLRF negative`: raises UnsupportedClearFlag (44_clear_flag.md R114) -/
def execClrfNegative (s : State) : Host.Outcome State Fault Refusal := clearFlag .negative s

end Sys2Proof.Machine
end

