-- ==== Sys2Proof/Machine/Dispatch.lean ====
section
/-! DEFINITION. One command executed whole: one arm per constructor of Instr, in the opcode table's order. -/

namespace Sys2Proof.Machine

/-- One step of the execution unit (00_scope.md R2): the command's status Ok with the new state is `next`, an error
is `fault` with the state unchanged (60_exceptions.md R123, R126). -/
def exec (i : Instr) (s : State) : Host.Outcome State Fault Refusal :=
  match i with
  | .adcImm n => Sys2Proof.Machine.execAdcImm n s
  | .adcAbs a => Sys2Proof.Machine.execAdcAbs a s
  | .adcZp a => Sys2Proof.Machine.execAdcZp a s
  | .adcAcc => Sys2Proof.Machine.execAdcAcc s
  | .andImm n => Sys2Proof.Machine.execAndImm n s
  | .andAbs a => Sys2Proof.Machine.execAndAbs a s
  | .andZp a => Sys2Proof.Machine.execAndZp a s
  | .andAcc => Sys2Proof.Machine.execAndAcc s
  | .aslImm n => Sys2Proof.Machine.execAslImm n s
  | .aslAbs a => Sys2Proof.Machine.execAslAbs a s
  | .aslZp a => Sys2Proof.Machine.execAslZp a s
  | .aslAcc => Sys2Proof.Machine.execAslAcc s
  | .bitImm n => Sys2Proof.Machine.execBitImm n s
  | .bitAbs a => Sys2Proof.Machine.execBitAbs a s
  | .bitZp a => Sys2Proof.Machine.execBitZp a s
  | .bitAcc => Sys2Proof.Machine.execBitAcc s
  | .bcc d => Sys2Proof.Machine.execBcc d s
  | .bcs d => Sys2Proof.Machine.execBcs d s
  | .beq d => Sys2Proof.Machine.execBeq d s
  | .bne d => Sys2Proof.Machine.execBne d s
  | .bmi d => Sys2Proof.Machine.execBmi d s
  | .bpl d => Sys2Proof.Machine.execBpl d s
  | .bvc d => Sys2Proof.Machine.execBvc d s
  | .bvs d => Sys2Proof.Machine.execBvs d s
  | .cmp a => Sys2Proof.Machine.execCmp a s
  | .cpx a => Sys2Proof.Machine.execCpx a s
  | .cpy a => Sys2Proof.Machine.execCpy a s
  | .clc => Sys2Proof.Machine.execClc s
  | .clrfZero => Sys2Proof.Machine.execClrfZero s
  | .cli => Sys2Proof.Machine.execCli s
  | .cld => Sys2Proof.Machine.execCld s
  | .clrfBreak => Sys2Proof.Machine.execClrfBreak s
  | .clv => Sys2Proof.Machine.execClv s
  | .clrfNegative => Sys2Proof.Machine.execClrfNegative s

end Sys2Proof.Machine
end

