-- ==== Sys2Proof/Machine/Port.lean ====
section
/-! DEFINITION. The command port: a command word issued, decoded, executed whole and answered, and the host's moves
taken in order (00_scope.md R3, 20_memory.md R41, 60_exceptions.md R125, R129). -/

namespace Sys2Proof.Machine

/-- What comes of a command that has ended (60_exceptions.md R123, R129), `s` being the state before it. Ok: the new
state, status 0 handed over. Error: the state is as before, and the host's policy decides: stop the run, or take the
status and go on "as if the failed one had never been issued". -/
def conclude (s : State) : Host.Outcome State Fault Refusal → Host.Outcome State Fault Refusal
  | .next t => .next (t.reply .ok)
  | .fault e =>
    match s.host.onError with
    | .stop => .fault e
    | .goOn => .next (s.reply e.status)
  | .refused r => .refused r

/-- One command word issued (60_exceptions.md R125): decoded, a reserved word refused, a command executed whole. -/
def issue (cw : CommandWord) (s : State) : Host.Outcome State Fault Refusal :=
  match decode cw with
  | .error why => .refused (.reservedWord why)
  | .ok i => conclude s (exec i s)

/-- One move of the host (70_reset_and_hazards.md R144). -/
def runMove (m : HostMove) (s : State) : Host.Outcome State Fault Refusal :=
  match m with
  | .issue cw => issue cw s
  | .write w => hostWrite w s

/-- The host's next move, taken off its list and made; with no move left the block is idle and holds its state
(60_exceptions.md R134; log entry 2). -/
def nextMove (s : State) : Host.Outcome State Fault Refusal :=
  match s.host.moves with
  | [] => .next s
  | m :: rest => runMove m (s.setMoves rest)

end Sys2Proof.Machine
end

