-- ==== Sys2Proof/Machine/Step.lean ====
section
/-! DEFINITION. One step of the machine: the host's next move (log entry 2). -/

namespace Sys2Proof.Machine

/-- One step: the host's next move, a command executed whole or a write between commands. -/
def step (s : State) : Host.Outcome State Fault Refusal := nextMove s

/-- The command word, given as the opcode table numbers its bits, put first in the host's moves, so that the next step
issues exactly it. The block fetches nothing from memory (20_memory.md R43), so nothing else is needed. -/
def State.withFetchWord (s : State) (nbits w : Nat) : State :=
  s.setMoves (.issue (tableWord nbits w) :: s.host.moves)

end Sys2Proof.Machine
end

