-- ==== Sys2Proof/Assembly.lean ====
section
/-! DEFINITION. The textual form of a command (30_encoding.md R65) and its mnemonic (R52): names only, nothing
the machine reads. -/

namespace Sys2Proof

/-- The mnemonic of the command's opcode-table row (30_encoding.md R52). -/
def Instr.mnemonic : Instr → String
  | .adcImm _ | .adcAbs _ | .adcZp _ | .adcAcc => "ADC"
  | .andImm _ | .andAbs _ | .andZp _ | .andAcc => "AND"
  | .aslImm _ | .aslAbs _ | .aslZp _ | .aslAcc => "ASL"
  | .bitImm _ | .bitAbs _ | .bitZp _ | .bitAcc => "BIT"
  | .bcc _ => "BCC"
  | .bcs _ => "BCS"
  | .beq _ => "BEQ"
  | .bne _ => "BNE"
  | .bmi _ => "BMI"
  | .bpl _ => "BPL"
  | .bvc _ => "BVC"
  | .bvs _ => "BVS"
  | .cmp _ => "CMP"
  | .cpx _ => "CPX"
  | .cpy _ => "CPY"
  | .clc => "CLC"
  | .cli => "CLI"
  | .cld => "CLD"
  | .clv => "CLV"
  | .clrfZero | .clrfBreak | .clrfNegative => "CLRF"

/-- A displacement is written with its sign (30_encoding.md R65). -/
def signedText (d : Int) : String := if 0 ≤ d then "+" ++ toString d else toString d

/-- The operand part of the assembly form, numbers in decimal (30_encoding.md R65). -/
def Instr.operandText : Instr → String
  | .adcImm n | .andImm n | .aslImm n | .bitImm n => " #" ++ toString n.toNat
  | .adcAbs a | .andAbs a | .aslAbs a | .bitAbs a => " abs " ++ toString a.toNat
  | .adcZp a | .andZp a | .aslZp a | .bitZp a => " zp " ++ toString a.toNat
  | .adcAcc | .andAcc | .aslAcc | .bitAcc => " A"
  | .bcc d | .bcs d | .beq d | .bne d | .bmi d | .bpl d | .bvc d | .bvs d => " " ++ signedText d
  | .cmp a | .cpx a | .cpy a => " " ++ toString a.toNat
  | .clc | .cli | .cld | .clv => ""
  | .clrfZero => " zero"
  | .clrfBreak => " break"
  | .clrfNegative => " negative"

/-- The command as one line of assembly (30_encoding.md R65). -/
def Instr.assembly (i : Instr) : String := i.mnemonic ++ i.operandText

end Sys2Proof
end

