-- ==== Sys2Proof/Safety.lean ====
section
/-! DEFINITION. What counts as a safe run: the conditions the spec puts on software (70_reset_and_hazards.md R148),
the invariant of the state, and a run that does not stop. -/

namespace Sys2Proof.Machine

/-- The pair (operation, mode) or the flag is supported (30_encoding.md R63, 44_clear_flag.md R114). -/
def supported : Instr → Bool
  | .adcImm _ | .adcAbs _ | .adcZp _ => true
  | .andImm _ | .andAbs _ | .andZp _ => true
  | .aslAcc | .bitAbs _ | .bitZp _ => true
  | .adcAcc | .andAcc | .aslImm _ | .aslAbs _ | .aslZp _ | .bitImm _ | .bitAcc => false
  | .bcc _ | .bcs _ | .beq _ | .bne _ | .bmi _ | .bpl _ | .bvc _ | .bvs _ => true
  | .cmp _ | .cpx _ | .cpy _ => true
  | .clc | .cli | .cld | .clv => true
  | .clrfZero | .clrfBreak | .clrfNegative => false

/-- The address a supported command reads, if it reads memory (20_memory.md R34). -/
def readAddress : Instr → Option Addr
  | .adcAbs a | .adcZp a | .andAbs a | .andZp a | .bitAbs a | .bitZp a => some a
  | .cmp a | .cpx a | .cpy a => some a
  | .adcImm _ | .adcAcc | .andImm _ | .andAcc | .aslImm _ | .aslAbs _ | .aslZp _ | .aslAcc => none
  | .bitImm _ | .bitAcc => none
  | .bcc _ | .bcs _ | .beq _ | .bne _ | .bmi _ | .bpl _ | .bvc _ | .bvs _ => none
  | .clc | .clrfZero | .cli | .cld | .clrfBreak | .clv | .clrfNegative => none

/-- The command is supported and its read, if any, is in range (70_reset_and_hazards.md R147, R148). -/
def allowed (len : Nat) (i : Instr) : Bool :=
  supported i && match readAddress i with
    | none => true
    | some a => decide (a.toNat < len)

/-- The host's move keeps to the spec (70_reset_and_hazards.md R144, R148): an accepted word of an allowed command, or
a write of a field that exists. -/
def behavedMove (len : Nat) : HostMove → Bool
  | .issue cw =>
    match decode cw with
    | .error _ => false
    | .ok i => allowed len i
  | .write (.cell a _) => decide (a.toNat < len)
  | .write (.accumulator _) | .write (.indexX _) | .write (.indexY _) => true
  | .write (.programCounter _) | .write (.stackPointer _) | .write (.flag _ _) => true

/-- Every move the host has still to make keeps to the spec. -/
def State.behaved (s : State) : Bool := s.host.moves.all (behavedMove s.mem.len.val)

/-- The invariant of the state: the memory is in its canonical form (the widths of 10_state.md R19 hold by typing). -/
def State.Inv (s : State) : Prop := s.mem.wf = true

/-- A run of `k` steps that stops at no fault and no refusal. -/
def runsSafely (k : Nat) (s : State) : Prop := ∃ t, Host.Core.run Sys2Proof.core k s = .next t

end Sys2Proof.Machine
end

