-- ==== Sys2Proof/Certificates/Slice0/Obligations.lean ====
section
/-! DEFINITION. The statements for the provers, from the numbered rules of spec/, and the words they are said in
(namespace `Sys2Proof.Claims`). A statement about a next state is an equation `exec i s = .next t`, so it says that the
instruction completes. -/

namespace Sys2Proof.Claims

open Sys2Proof.Machine

/-- The command raises the error and nothing is written (60_exceptions.md R126, R128, R129): `exec` answers the fault,
and where the host goes on after an error, the step that issues the command leaves every field of the block as it was,
takes the command off the host's list and hands over the error's status. -/
def Rejects (i : Instr) (s : State) (e : Fault) : Prop :=
  exec i s = .fault e ∧
    ∀ (cw : CommandWord) (rest : List HostMove) (replies : List Status), decode cw = .ok i →
      step (s.setHost ⟨.issue cw :: rest, .goOn, replies⟩) = .next (s.setHost ⟨rest, .goOn, e.status :: replies⟩)

/-- The two memory forms of an operation: below MEM_LEN they complete with `effect` of the byte of the cell, at and
beyond it they raise OutOfRange with nothing written (20_memory.md R32, R33). -/
def ReadsMemory (i : Addr → Instr) (effect : State → Byte → State → Prop) : Prop :=
  ∀ (s : State) (a : Addr),
    (a.toNat < s.mem.len.val → ∃ t, exec (i a) s = .next t ∧ effect s (s.mem.byteAt a.toNat) t) ∧
    (s.mem.len.val ≤ a.toNat → Rejects (i a) s (.outOfRange a))

/-- ADC's effect (41_alu.md R80) in numbers: only A, C, V, N, Z change. -/
def AddEffect (s : State) (v : Byte) (t : State) : Prop :=
  t = { s with a := t.a, flags := { s.flags with c := t.flags.c, z := t.flags.z, v := t.flags.v, n := t.flags.n } } ∧
  t.a.toNat = (s.a.toNat + v.toNat) % 256 ∧
  (t.flags.c = true ↔ 256 ≤ s.a.toNat + v.toNat) ∧
  (t.flags.v = true ↔ (128 ≤ s.a.toNat ↔ 128 ≤ v.toNat) ∧ ¬ (128 ≤ s.a.toNat ↔ 128 ≤ t.a.toNat)) ∧
  (t.flags.n = true ↔ 128 ≤ t.a.toNat) ∧
  (t.flags.z = true ↔ t.a.toNat = 0)

/-- The command completes from both states, with the same five outputs of ADC (41_alu.md R80, R81); the three flags it
never touches stay each state's own. -/
def SameAddOutputs (i : Instr) (s s' : State) : Prop :=
  ∃ t t', exec i s = .next t ∧ exec i s' = .next t' ∧
    t.a = t'.a ∧ t.flags.c = t'.flags.c ∧ t.flags.z = t'.flags.z ∧ t.flags.v = t'.flags.v ∧ t.flags.n = t'.flags.n ∧
    (t.flags.i = s.flags.i ∧ t.flags.d = s.flags.d ∧ t.flags.b = s.flags.b) ∧
    (t'.flags.i = s'.flags.i ∧ t'.flags.d = s'.flags.d ∧ t'.flags.b = s'.flags.b)

/-- AND's effect (41_alu.md R82): only A, N, Z change. -/
def AndEffect (s : State) (v : Byte) (t : State) : Prop :=
  t = { s with a := t.a, flags := { s.flags with z := t.flags.z, n := t.flags.n } } ∧
  t.a.toNat = s.a.toNat &&& v.toNat ∧
  (t.flags.n = true ↔ 128 ≤ t.a.toNat) ∧
  (t.flags.z = true ↔ t.a.toNat = 0)

/-- ASL's effect (41_alu.md R84): only A, C, N, Z change; C is the old bit 7, N the old bit 6. -/
def ShiftEffect (s t : State) : Prop :=
  t = { s with a := t.a, flags := { s.flags with c := t.flags.c, z := t.flags.z, n := t.flags.n } } ∧
  t.a.toNat = (2 * s.a.toNat) % 256 ∧
  (t.flags.c = true ↔ 256 ≤ 2 * s.a.toNat) ∧ t.flags.c = s.a.getLsbD 7 ∧
  (t.flags.n = true ↔ 128 ≤ t.a.toNat) ∧ t.flags.n = s.a.getLsbD 6 ∧
  (t.flags.z = true ↔ t.a.toNat = 0)

/-- BIT's effect (43_bit_compare.md R100): only Z, N, V change; N and V are bits 7 and 6 of the memory byte. -/
def BitEffect (s : State) (m : Byte) (t : State) : Prop :=
  t = { s with flags := { s.flags with z := t.flags.z, v := t.flags.v, n := t.flags.n } } ∧
  (t.flags.z = true ↔ s.a.toNat &&& m.toNat = 0) ∧
  (t.flags.n = true ↔ m.toNat / 128 % 2 = 1) ∧
  (t.flags.v = true ↔ m.toNat / 64 % 2 = 1)

/-- Compare's effect for the register `reg` (43_bit_compare.md R102): only C, Z, N change, and exactly one of them is
true afterwards. -/
def CompareEffect (reg : State → Byte) (s : State) (m : Byte) (t : State) : Prop :=
  t = { s with flags := { s.flags with c := t.flags.c, z := t.flags.z, n := t.flags.n } } ∧
  (t.flags.c = true ↔ 0 < ((reg s).toNat : Int) - m.toNat) ∧
  (t.flags.z = true ↔ ((reg s).toNat : Int) - m.toNat = 0) ∧
  (t.flags.n = true ↔ ((reg s).toNat : Int) - m.toNat < 0) ∧
  [t.flags.c, t.flags.z, t.flags.n].count true = 1

/-- A branch with predicate `taken` and operation code `op` (42_branch.md R90): it always completes; taken, PC becomes
`(PC + d) mod 65536` and nothing else changes; not taken, nothing changes. Its word carries `d mod 65536` below `op`
and its displacement is the operand field as two's complement. -/
def BranchRow (i : Int → Instr) (taken : Flags → Bool) (op : Nat) : Prop :=
  (∀ (s : State) (d : Int), taken s.flags = true →
    ∃ t, exec (i d) s = .next t ∧ t = { s with pc := t.pc } ∧ (t.pc.toNat : Int) = ((s.pc.toNat : Int) + d) % 65536) ∧
  (∀ (s : State) (d : Int), taken s.flags = false → exec (i d) s = .next s) ∧
  (∀ d : Int, ((encode (i d)).toNat : Int) = op * 2 ^ 20 + d % 65536) ∧
  (∀ w : Nat, w < 65536 → decode (BitVec.ofNat 24 (op * 2 ^ 20 + w)) =
    .ok (i (if w < 32768 then (w : Int) else (w : Int) - 65536)))

/-- A worked branch of 42_branch.md: its word, and PC after it where the predicate's flags are as given. -/
def BranchExample (i : Instr) (word : CommandWord) (pc : BitVec 16) (flags : Flags → Bool) (pc' : BitVec 16) : Prop :=
  encode i = word ∧ ∀ s : State, s.pc = pc → flags s.flags = true → ∃ t, exec i s = .next t ∧ t.pc = pc'

/-- Two complementary branches (42_branch.md R99): for every state and displacement one of the two goes to the target
and the other leaves the state as it was. -/
def ComplementaryPair (i j : Int → Instr) : Prop :=
  ∀ (s : State) (d : Int), ∃ t,
    (exec (i d) s = .next t ∧ exec (j d) s = .next s ∨ exec (i d) s = .next s ∧ exec (j d) s = .next t) ∧
    t = { s with pc := t.pc } ∧ (t.pc.toNat : Int) = ((s.pc.toNat : Int) + d) % 65536

/-- A next state mapped, a fault or a refusal kept. -/
def mapNext (f : State → State) : Host.Outcome State Fault Refusal → Host.Outcome State Fault Refusal
  | .next t => .next (f t)
  | .fault e => .fault e
  | .refused r => .refused r

/-- The state with the three inert flags forgotten (10_state.md R18). -/
def eraseInert (s : State) : State := { s with flags := { s.flags with i := false, d := false, b := false } }

/-- The fields of the block's record that a command may write (10_state.md section 1). -/
inductive Field where
  | a | x | y | pc | sp | c | z | i | d | b | v | n
deriving DecidableEq, Repr

/-- The "writes" of each operation's rule (00_scope.md R5, 10_state.md section 1). -/
def writes : Instr → List Field
  | .adcImm _ | .adcAbs _ | .adcZp _ | .adcAcc => [.a, .c, .v, .n, .z]
  | .andImm _ | .andAbs _ | .andZp _ | .andAcc => [.a, .n, .z]
  | .aslImm _ | .aslAbs _ | .aslZp _ | .aslAcc => [.a, .c, .n, .z]
  | .bitImm _ | .bitAbs _ | .bitZp _ | .bitAcc => [.z, .n, .v]
  | .bcc _ | .bcs _ | .beq _ | .bne _ | .bmi _ | .bpl _ | .bvc _ | .bvs _ => [.pc]
  | .cmp _ | .cpx _ | .cpy _ => [.c, .z, .n]
  | .clc => [.c]
  | .cli => [.i]
  | .cld => [.d]
  | .clv => [.v]
  | .clrfZero | .clrfBreak | .clrfNegative => []

/-- The field holds the same value in both states. -/
def sameField (s t : State) : Field → Bool
  | .a => s.a == t.a
  | .x => s.x == t.x
  | .y => s.y == t.y
  | .pc => s.pc == t.pc
  | .sp => s.sp == t.sp
  | .c => s.flags.c == t.flags.c
  | .z => s.flags.z == t.flags.z
  | .i => s.flags.i == t.flags.i
  | .d => s.flags.d == t.flags.d
  | .b => s.flags.b == t.flags.b
  | .v => s.flags.v == t.flags.v
  | .n => s.flags.n == t.flags.n

/-- The error a command raises in a memory of `len` bytes, row by row from the table of 60_exceptions.md R124. -/
def errorOf (len : Nat) : Instr → Option Fault
  | .adcAcc | .andAcc | .bitAcc => some (.unsupportedMode .accumulator)
  | .aslImm _ | .bitImm _ => some (.unsupportedMode .immediate)
  | .aslAbs _ => some (.unsupportedMode .absolute)
  | .aslZp _ => some (.unsupportedMode .zeroPage)
  | .adcAbs a | .adcZp a | .andAbs a | .andZp a | .bitAbs a | .bitZp a | .cmp a | .cpx a | .cpy a =>
    if len ≤ a.toNat then some (.outOfRange a) else none
  | .clrfZero => some (.unsupportedClearFlag .zero)
  | .clrfBreak => some (.unsupportedClearFlag .brk)
  | .clrfNegative => some (.unsupportedClearFlag .negative)
  | .adcImm _ | .andImm _ | .aslAcc | .clc | .cli | .cld | .clv => none
  | .bcc _ | .bcs _ | .beq _ | .bne _ | .bmi _ | .bpl _ | .bvc _ | .bvs _ => none

/-- The nine commands that read memory, by their address (20_memory.md R34). -/
def readers : List (Addr → Instr) :=
  [.adcAbs, .adcZp, .andAbs, .andZp, .bitAbs, .bitZp, .cmp, .cpx, .cpy]

/-- The four clears that complete (44_clear_flag.md R110 to R113). -/
def clears : List Instr := [.clc, .cli, .cld, .clv]

/-- The host's move is taken by the block without a refusal: a word that decodes, or a write of a field that exists. -/
def takenMove (len : Nat) : HostMove → Bool
  | .issue cw =>
    match decode cw with
    | .error _ => false
    | .ok _ => true
  | .write (.cell a _) => decide (a.toNat < len)
  | .write (.accumulator _) | .write (.indexX _) | .write (.indexY _) => true
  | .write (.programCounter _) | .write (.stackPointer _) | .write (.flag _ _) => true

end Sys2Proof.Claims

open Sys2Proof Sys2Proof.Machine Sys2Proof.Claims

/-! ### Reset and invariants -/

/-- The values of `State.reset` are the model's own choice (log entries 1 to 5): the spec gives none (R141). The state
they make is one the host may choose (R143): canonical memory, MEM_LEN in range, no command under way. -/
def Obligations.ResetIsAHostChosenState : Prop :=
  State.reset.Inv ∧ State.reset.mem.len.val ≤ 65536 ∧ State.reset.host.moves = [] ∧
    step State.reset = .next State.reset

/-- Every step from a state with canonical memory leaves canonical memory, a host write of a cell included. The canonical
form is the model's way to hold memory (log entry 3). -/
def Obligations.EveryStepKeepsCanonicalMemory : Prop :=
  ∀ s t : State, s.Inv → step s = .next t → t.Inv

/-- MEM_LEN is fixed for a run (00_scope.md R4, 20_memory.md R44): no step changes it. -/
def Obligations.NoStepChangesMemoryLength : Prop :=
  ∀ s t : State, step s = .next t → t.mem.len = s.mem.len

/-- The canonical form, the model's way to hold memory (log entry 3), is canonical: two memories of one length that read the
same at every cell are equal. -/
def Obligations.SameReadsMeanSameMemory : Prop :=
  ∀ m m' : Memory, m.wf = true → m'.wf = true → m.len = m'.len →
    (∀ a : Addr, a.toNat < m.len.val → m.byteAt a.toNat = m'.byteAt a.toNat) → m = m'

/-! ### Encoding -/

/-- Every well-formed command is read back from its word. -/
def Obligations.DecodeOfEncodeIsTheCommand : Prop :=
  ∀ i : Instr, i.wellFormed = true → decode (encode i) = .ok i

/-- Every accepted word is the word of its command, but for the operand field that accumulator mode ignores (R60): its
upper 8 bits are then kept and the ignored 16 bits are written as 0. The command is well-formed. -/
def Obligations.EncodeOfDecodeIsTheWord : Prop :=
  ∀ (cw : CommandWord) (i : Instr), decode cw = .ok i → i.wellFormed = true ∧
    encode i = if i = .adcAcc ∨ i = .andAcc ∨ i = .aslAcc ∨ i = .bitAcc then cw &&& 0xFF0000#24 else cw

/-- The refused words are exactly the five classes of R62, by the word's fields as numbers; the accepted words are
exactly those that match a row of the opcode table; a refused word issued by the host is refused by the step. -/
def Obligations.ReservedWordsAreTheFiveClasses : Prop :=
  (∀ cw : CommandWord, (∃ why, decode cw = .error why) ↔
    (cw.toNat / 2 ^ 16 % 4 ≠ 0 ∨
     (cw.toNat / 2 ^ 20 ∈ [3, 4, 5, 6, 7, 8, 9, 10, 12, 13, 14, 15] ∧ cw.toNat / 2 ^ 18 % 4 ≠ 0) ∨
     (cw.toNat / 2 ^ 20 ∈ [0, 1, 2, 11] ∧ cw.toNat / 2 ^ 18 % 4 = 0 ∧ 255 < cw.toNat % 2 ^ 16) ∨
     (cw.toNat / 2 ^ 20 = 15 ∧ cw.toNat % 2 ^ 16 / 8 ≠ 0) ∨
     (cw.toNat / 2 ^ 20 = 15 ∧ cw.toNat % 8 = 7))) ∧
  (∀ cw : CommandWord, (∃ i, decode cw = .ok i) ↔ ∃ row ∈ opcodeRows, rowMatches cw row = true) ∧
  (∀ (s : State) (cw : CommandWord) (rest : List HostMove) (why : Reserved),
    s.host.moves = .issue cw :: rest → decode cw = .error why → step s = .refused (.reservedWord why))

/-- An accepted word matches the opcode-table row of the command it decodes to. -/
def Obligations.DecodedWordMatchesItsRow : Prop :=
  ∀ (cw : CommandWord) (i : Instr), decode cw = .ok i → rowMatches cw (opcodeRow i) = true

/-- No word matches two rows of the opcode table. -/
def Obligations.OpcodeRowsDoNotOverlap : Prop :=
  opcodeRows.length = 34 ∧
    opcodeRows.Pairwise fun p q => (p.1 ^^^ q.1) &&& (p.2 &&& q.2) ≠ 0#24

/-- The decoder vectors of 95_test_vectors.md section 4. -/
def Obligations.DecoderVectorsOfTheSpec : Prop :=
  decode 0x000044#24 = .ok (.adcImm 0x44#8) ∧ decode 0x0000FF#24 = .ok (.adcImm 0xFF#8) ∧
  decode 0x000100#24 = .error .literalAboveByte ∧ decode 0x041234#24 = .ok (.adcAbs 0x1234#16) ∧
  decode 0x081234#24 = .ok (.adcZp 0x1234#16) ∧ decode 0x0C0000#24 = .ok .adcAcc ∧
  decode 0x010000#24 = .error .reservedBits ∧ decode 0x020000#24 = .error .reservedBits ∧
  decode 0x030000#24 = .error .reservedBits ∧ decode 0x2C0000#24 = .ok .aslAcc ∧
  decode 0x2CFFFF#24 = .ok .aslAcc ∧ decode 0x60FFFD#24 = .ok (.bne (-3)) ∧
  decode 0x340005#24 = .error .modeNotZero ∧ decode 0xB40010#24 = .ok (.bitAbs 0x0010#16) ∧
  decode 0xC00010#24 = .ok (.cmp 0x0010#16) ∧ decode 0xC40010#24 = .error .modeNotZero ∧
  decode 0xD00020#24 = .ok (.cpx 0x0020#16) ∧ decode 0xF00000#24 = .ok .clc ∧
  decode 0xF00001#24 = .ok .clrfZero ∧ decode 0xF00007#24 = .error .selectorSeven ∧
  decode 0xF00008#24 = .error .selectorHighBits ∧ decode 0xF40000#24 = .error .modeNotZero

/-! ### One step -/

/-- When the host's next move issues a word that decodes to a well-formed command, the step is `exec` of it on the state
with that move taken, and what is added around `exec` is: status Ok handed over on a next state; on an error the run
stops, or the host is handed the status and goes on, by its policy. `withFetchWord` puts exactly such a move first. -/
def Obligations.StepRunsTheDecodedCommand : Prop :=
  (∀ (s : State) (cw : CommandWord) (rest : List HostMove) (i : Instr),
    s.host.moves = .issue cw :: rest → decode cw = .ok i → i.wellFormed = true →
      (∀ t, exec i (s.setMoves rest) = .next t → step s = .next (t.reply .ok)) ∧
      (∀ e, exec i (s.setMoves rest) = .fault e → s.host.onError = .stop → step s = .fault e) ∧
      (∀ e, exec i (s.setMoves rest) = .fault e → s.host.onError = .goOn →
        step s = .next ((s.setMoves rest).reply e.status))) ∧
  (∀ (s : State) (nbits w : Nat),
    (s.withFetchWord nbits w).host.moves = .issue (tableWord nbits w) :: s.host.moves ∧
    (s.withFetchWord nbits w).setMoves s.host.moves = s)

/-- The host between commands (R25, R44): a write sets its one field and nothing else; a write of a cell that does not
exist is refused (the model's choice, log entry 6); with no move left the state is held (log entry 2). -/
def Obligations.HostWritesSetOneField : Prop :=
  ∀ (s : State) (rest : List HostMove) (v : Byte) (w : BitVec 16) (f : Flag) (b : Bool),
    (s.host.moves = .write (.accumulator v) :: rest → step s = .next { s.setMoves rest with a := v }) ∧
    (s.host.moves = .write (.indexX v) :: rest → step s = .next { s.setMoves rest with x := v }) ∧
    (s.host.moves = .write (.indexY v) :: rest → step s = .next { s.setMoves rest with y := v }) ∧
    (s.host.moves = .write (.programCounter w) :: rest → step s = .next { s.setMoves rest with pc := w }) ∧
    (s.host.moves = .write (.stackPointer w) :: rest → step s = .next { s.setMoves rest with sp := w }) ∧
    (s.host.moves = .write (.flag f b) :: rest → ∃ t, step s = .next t ∧
      t = { s.setMoves rest with flags := t.flags } ∧ t.flags.get f = b ∧
      ∀ g, g ≠ f → t.flags.get g = s.flags.get g) ∧
    (s.host.moves = .write (.cell w v) :: rest → s.mem.len.val ≤ w.toNat → step s = .refused (.noSuchCell w)) ∧
    (s.host.moves = [] → step s = .next s)

/-- A read returns the value of the latest host write (R41 item 3): after the host writes a cell that exists, the block
reads the byte written there and, at every other address, what it read before; no other field changes. -/
def Obligations.ReadAfterHostWriteReturnsIt : Prop :=
  ∀ (s : State) (rest : List HostMove) (a : Addr) (v : Byte), s.Inv →
    s.host.moves = .write (.cell a v) :: rest → a.toNat < s.mem.len.val →
      ∃ t, step s = .next t ∧ t = { s.setMoves rest with mem := t.mem } ∧ memRead t a = .ok v ∧
        ∀ b : Addr, b ≠ a → memRead t b = memRead s b

/-- Moves are made one at a time in the host's order (R41 item 1, for commands), and no step changes the host's policy. The
list of moves is the model's choice (log entry 2), and so is a policy held in a field that no move writes (log entry 5):
R129 leaves the policy to the host. -/
def Obligations.StepsTakeTheMovesInOrder : Prop :=
  ∀ s t : State, step s = .next t → t.host.moves = s.host.moves.tail ∧ t.host.onError = s.host.onError

/-- For every state and every word exactly one thing happens (R150): refused; completed with Ok and a new state; one of
the errors, with the old state.The host's policy as a field of State is the model's choice (log entry 5). -/
def Obligations.EveryIssuedWordEndsOneWay : Prop :=
  ∀ (s : State) (cw : CommandWord),
    (∃ why, decode cw = .error why ∧ issue cw s = .refused (.reservedWord why)) ∨
    (∃ i t, decode cw = .ok i ∧ exec i s = .next t ∧ issue cw s = .next (t.reply .ok)) ∨
    (∃ i e, decode cw = .ok i ∧ Rejects i s e ∧
      issue cw s = if s.host.onError = .stop then .fault e else .next (s.reply e.status))

/-- The status output (R123): the four codes and the payload of each; each error's status carries its own value. -/
def Obligations.StatusCodesAndPayloads : Prop :=
  Status.ok.code = 0#2 ∧ Status.ok.payload = none ∧
  (∀ m : Mode, (Fault.unsupportedMode m).status = .unsupportedMode m ∧ (Status.unsupportedMode m).code = 1#2 ∧
    (Status.unsupportedMode m).payload = some m.code.toNat) ∧
  (∀ f : Flag, (Fault.unsupportedClearFlag f).status = .unsupportedClearFlag f ∧
    (Status.unsupportedClearFlag f).code = 2#2 ∧ (Status.unsupportedClearFlag f).payload = some f.selector.toNat) ∧
  (∀ a : Addr, (Fault.outOfRange a).status = .outOfRange a ∧ (Status.outOfRange a).code = 3#2 ∧
    (Status.outOfRange a).payload = some a.toNat)

/-- The status is an output, not state (R21, R123): what a step does is the same whatever statuses were handed over
before, and those are kept. The list they are kept in is the model's (log entry 5). -/
def Obligations.StepNeverReadsEarlierStatuses : Prop :=
  ∀ (s : State) (p : List Status),
    step { s with host := { s.host with replies := s.host.replies ++ p } } =
      mapNext (fun t => { t with host := { t.host with replies := t.host.replies ++ p } }) (step s)

/-! ### Arithmetic and logic -/

/-- ADC (R80): words, the three supported modes, the unsupported one, and the worked example. -/
def Obligations.AdcAddsWithoutCarryIn : Prop :=
  (∀ (s : State) (n : Byte), ∃ t, exec (.adcImm n) s = .next t ∧ AddEffect s n t) ∧
  ReadsMemory .adcAbs AddEffect ∧ ReadsMemory .adcZp AddEffect ∧
  (∀ s : State, Rejects .adcAcc s (.unsupportedMode .accumulator)) ∧
  (∀ n : Byte, (encode (.adcImm n)).toNat = n.toNat) ∧
  (∀ a : Addr, (encode (.adcAbs a)).toNat = 0x040000 + a.toNat ∧ (encode (.adcZp a)).toNat = 0x080000 + a.toNat) ∧
  (∀ s : State, s.a = 0x7F#8 → ∃ t, exec (.adcImm 0x01#8) s = .next t ∧ t.a = 0x80#8 ∧
    t.flags.c = false ∧ t.flags.v = true ∧ t.flags.n = true ∧ t.flags.z = false)

/-- ADC's outputs depend on A and the operand byte only (R81 items 1, 2): from two states that agree on A, whatever else
they hold, ADC with an immediate leaves the same A, C, Z, V, N; so do its two memory forms where the address is in range in
both states and the byte read there is the same. I, D and B stay each state's own. -/
def Obligations.AdcIgnoresEveryIncomingFlag : Prop :=
  ∀ s s' : State, s.a = s'.a →
    (∀ n : Byte, SameAddOutputs (.adcImm n) s s') ∧
    (∀ a : Addr, a.toNat < s.mem.len.val → a.toNat < s'.mem.len.val →
      s.mem.byteAt a.toNat = s'.mem.byteAt a.toNat →
        SameAddOutputs (.adcAbs a) s s' ∧ SameAddOutputs (.adcZp a) s s')

/-- ADC's overflow is signed overflow (R81 item 3), in both equivalent forms, and carry and result make up the exact
sum. -/
def Obligations.AdcOverflowIsSignedOverflow : Prop :=
  ∀ (s : State) (n : Byte), ∃ t, exec (.adcImm n) s = .next t ∧
    (t.flags.v = true ↔ s.a.toInt + n.toInt < -128 ∨ 127 < s.a.toInt + n.toInt) ∧
    t.flags.v = ((s.a ^^^ t.a) &&& (n ^^^ t.a)).getLsbD 7 ∧
    256 * t.flags.c.toNat + t.a.toNat = s.a.toNat + n.toNat ∧
    ¬ (t.flags.n = true ∧ t.flags.z = true)

/-- AND (R82): words, the three supported modes, the unsupported one, and the worked example. -/
def Obligations.AndMasksTheAccumulator : Prop :=
  (∀ (s : State) (n : Byte), ∃ t, exec (.andImm n) s = .next t ∧ AndEffect s n t) ∧
  ReadsMemory .andAbs AndEffect ∧ ReadsMemory .andZp AndEffect ∧
  (∀ s : State, Rejects .andAcc s (.unsupportedMode .accumulator)) ∧
  (∀ n : Byte, (encode (.andImm n)).toNat = 0x100000 + n.toNat) ∧
  (∀ a : Addr, (encode (.andAbs a)).toNat = 0x140000 + a.toNat ∧ (encode (.andZp a)).toNat = 0x180000 + a.toNat) ∧
  (∀ s : State, s.a = 0xDD#8 → ∃ t, exec (.andImm 0xF0#8) s = .next t ∧ t.a = 0xD0#8 ∧
    t.flags.n = true ∧ t.flags.z = false)

/-- AND again with the same byte changes nothing more; its result is at most either input (95_test_vectors.md 2.3). -/
def Obligations.AndTwiceIsAndOnce : Prop :=
  ∀ (s : State) (n : Byte), ∃ t, exec (.andImm n) s = .next t ∧ exec (.andImm n) t = .next t ∧
    t.a.toNat ≤ s.a.toNat ∧ t.a.toNat ≤ n.toNat ∧ (t.flags.n = true ↔ s.a.getLsbD 7 = true ∧ n.getLsbD 7 = true)

/-- AND then ADC of 0 (R88): A, N and Z stay as AND left them, C and V become false, whatever form the AND has. -/
def Obligations.AddZeroAfterAndKeepsItsConclusions : Prop :=
  ∀ (i : Instr) (s t : State),
    ((∃ n, i = .andImm n) ∨ (∃ a, i = .andAbs a) ∨ (∃ a, i = .andZp a)) → exec i s = .next t →
      exec (.adcImm 0x00#8) t = .next { t with flags := { t.flags with c := false, v := false } } ∧
      t.flags.n = t.a.getLsbD 7 ∧ t.flags.z = decide (t.a = 0x00#8)

/-- ASL (R84): its word whatever the ignored operand, its effect, the three unsupported modes, and the worked example. -/
def Obligations.AslDoublesTheAccumulator : Prop :=
  (∀ s : State, ∃ t, exec .aslAcc s = .next t ∧ ShiftEffect s t) ∧
  (∀ (s : State) (n : Byte), Rejects (.aslImm n) s (.unsupportedMode .immediate)) ∧
  (∀ (s : State) (a : Addr), Rejects (.aslAbs a) s (.unsupportedMode .absolute) ∧
    Rejects (.aslZp a) s (.unsupportedMode .zeroPage)) ∧
  encode .aslAcc = 0x2C0000#24 ∧
  (∀ opr : Nat, opr < 65536 → decode (BitVec.ofNat 24 (0x2C0000 + opr)) = .ok .aslAcc) ∧
  (∀ s : State, s.a = 0xFF#8 → ∃ t, exec .aslAcc s = .next t ∧ t.a = 0xFE#8 ∧
    t.flags.c = true ∧ t.flags.n = true ∧ t.flags.z = false)

/-- ASL is ADC of A to itself but for V, which it leaves alone; carry and result make up twice A, and bit 0 of the result
is 0 (95_test_vectors.md 2.4, R85). -/
def Obligations.AslIsAddingTheAccumulatorToItself : Prop :=
  ∀ s : State, ∃ t u, exec .aslAcc s = .next t ∧ exec (.adcImm s.a) s = .next u ∧
    t = { u with flags := { u.flags with v := s.flags.v } } ∧
    256 * t.flags.c.toNat + t.a.toNat = 2 * s.a.toNat ∧ t.a.getLsbD 0 = false

/-- The five unsupported pairs of the twelve of the family (R87): each is well-formed, and its whole effect is to raise
UnsupportedMode with its own mode, in every state and whatever memory holds. The seven other pairs never raise it. -/
def Obligations.UnsupportedPairsOnlyRaise : Prop :=
  ∀ (s : State) (n : Byte) (a : Addr),
    (Instr.wellFormed .adcAcc = true ∧ Rejects .adcAcc s (.unsupportedMode .accumulator)) ∧
    (Instr.wellFormed .andAcc = true ∧ Rejects .andAcc s (.unsupportedMode .accumulator)) ∧
    (Instr.wellFormed (.aslImm n) = true ∧ Rejects (.aslImm n) s (.unsupportedMode .immediate)) ∧
    (Instr.wellFormed (.aslAbs a) = true ∧ Rejects (.aslAbs a) s (.unsupportedMode .absolute)) ∧
    (Instr.wellFormed (.aslZp a) = true ∧ Rejects (.aslZp a) s (.unsupportedMode .zeroPage)) ∧
    (∀ i ∈ [Instr.adcImm n, .adcAbs a, .adcZp a, .andImm n, .andAbs a, .andZp a, .aslAcc], ∀ m,
      exec i s ≠ .fault (.unsupportedMode m))

/-! ### Branches -/

/-- The eight branches (R90 to R98): the common rule, each predicate and operation code, and each rule's worked
example. -/
def Obligations.BranchesAddTheDisplacement : Prop :=
  BranchRow .bcc (fun f => !f.c) 3 ∧ BranchRow .bcs (fun f => f.c) 4 ∧
  BranchRow .beq (fun f => f.z) 5 ∧ BranchRow .bne (fun f => !f.z) 6 ∧
  BranchRow .bmi (fun f => f.n) 7 ∧ BranchRow .bpl (fun f => !f.n) 8 ∧
  BranchRow .bvc (fun f => !f.v) 9 ∧ BranchRow .bvs (fun f => f.v) 10 ∧
  BranchExample (.bcc 5) 0x300005#24 0x1000#16 (fun f => !f.c) 0x1005#16 ∧
  BranchExample (.bcc 5) 0x300005#24 0x1000#16 (fun f => f.c) 0x1000#16 ∧
  BranchExample (.bcs (-3)) 0x40FFFD#24 0x1000#16 (fun f => f.c) 0x0FFD#16 ∧
  BranchExample (.bcs (-3)) 0x40FFFD#24 0x1000#16 (fun f => !f.c) 0x1000#16 ∧
  BranchExample (.beq 5) 0x500005#24 0xFFFE#16 (fun f => f.z) 0x0003#16 ∧
  BranchExample (.bne (-5)) 0x60FFFB#24 0x0002#16 (fun f => !f.z) 0xFFFD#16 ∧
  BranchExample (.bmi 127) 0x70007F#24 0x8000#16 (fun f => f.n) 0x807F#16 ∧
  BranchExample (.bpl (-128)) 0x80FF80#24 0x8000#16 (fun f => !f.n) 0x7F80#16 ∧
  BranchExample (.bvc 0) 0x900000#24 0x1234#16 (fun f => !f.v) 0x1234#16 ∧
  BranchExample (.bvs (-1)) 0xA0FFFF#24 0x0000#16 (fun f => f.v) 0xFFFF#16

/-- The four pairs are complementary (R99): for every state and displacement one branch of the pair goes to the target
and the other leaves the state alone. -/
def Obligations.BranchPairsAreComplementary : Prop :=
  ComplementaryPair .bcc .bcs ∧ ComplementaryPair .beq .bne ∧ ComplementaryPair .bmi .bpl ∧ ComplementaryPair .bvc .bvs

/-- PC is moved by a taken branch only (R13), and then by its displacement modulo 65536. -/
def Obligations.OnlyTakenBranchesMoveThePc : Prop :=
  ∀ (i : Instr) (s t : State), exec i s = .next t → t.pc ≠ s.pc →
    ∃ d : Int, (t.pc.toNat : Int) = ((s.pc.toNat : Int) + d) % 65536 ∧
      (i = .bcc d ∧ s.flags.c = false ∨ i = .bcs d ∧ s.flags.c = true ∨
       i = .beq d ∧ s.flags.z = true ∨ i = .bne d ∧ s.flags.z = false ∨
       i = .bmi d ∧ s.flags.n = true ∨ i = .bpl d ∧ s.flags.n = false ∨
       i = .bvc d ∧ s.flags.v = false ∨ i = .bvs d ∧ s.flags.v = true)

/-! ### Bit test and compare -/

/-- BIT (R100): words, the two supported modes, the two unsupported ones, and the worked example. -/
def Obligations.BitTestsTheMemoryByte : Prop :=
  ReadsMemory .bitAbs BitEffect ∧ ReadsMemory .bitZp BitEffect ∧
  (∀ (s : State) (n : Byte), Rejects (.bitImm n) s (.unsupportedMode .immediate)) ∧
  (∀ s : State, Rejects .bitAcc s (.unsupportedMode .accumulator)) ∧
  (∀ a : Addr, (encode (.bitAbs a)).toNat = 0xB40000 + a.toNat ∧ (encode (.bitZp a)).toNat = 0xB80000 + a.toNat) ∧
  (∀ s : State, s.a = 0x01#8 → 0x0010 < s.mem.len.val → s.mem.byteAt 0x0010 = 0xC1#8 →
    ∃ t, exec (.bitAbs 0x0010#16) s = .next t ∧ t.a = 0x01#8 ∧
      t.flags.z = false ∧ t.flags.n = true ∧ t.flags.v = true)

/-- CMP, CPX, CPY (R102, R103): words, the effect on the exact difference for each register, OutOfRange, and CMP's worked
example. -/
def Obligations.ComparesOrderTheRegisterAndTheByte : Prop :=
  ReadsMemory .cmp (CompareEffect (·.a)) ∧ ReadsMemory .cpx (CompareEffect (·.x)) ∧
  ReadsMemory .cpy (CompareEffect (·.y)) ∧
  (∀ a : Addr, (encode (.cmp a)).toNat = 0xC00000 + a.toNat ∧ (encode (.cpx a)).toNat = 0xD00000 + a.toNat ∧
    (encode (.cpy a)).toNat = 0xE00000 + a.toNat) ∧
  (∀ s : State, s.a = 0x05#8 → 0x0010 < s.mem.len.val → s.mem.byteAt 0x0010 = 0x02#8 →
    ∃ t, exec (.cmp 0x0010#16) s = .next t ∧ t.flags.c = true ∧ t.flags.z = false ∧ t.flags.n = false)

/-- The corner cases of R106: carry is false on equality, and negative is not bit 7 of the wrapped difference: where the
two bytes are 128 or more apart the two differ. -/
def Obligations.CompareNegativeIsNotTheWrappedBit : Prop :=
  ∀ (s : State) (a : Addr), a.toNat < s.mem.len.val → ∃ t, exec (.cmp a) s = .next t ∧
    (s.a = s.mem.byteAt a.toNat → t.flags.c = false ∧ t.flags.z = true ∧ t.flags.n = false) ∧
    (t.flags.n ≠ (s.a - s.mem.byteAt a.toNat).getLsbD 7 ↔
      128 < ((s.a.toNat : Int) - (s.mem.byteAt a.toNat).toNat).natAbs ∨
      (s.a.toNat : Int) - (s.mem.byteAt a.toNat).toNat = 128)

/-- Only BIT can leave Z and N both true (R16, R101): after any other command that completes they are not both true
unless they both were before it. -/
def Obligations.ZeroAndNegativeTogetherOnlyFromBit : Prop :=
  (∀ (i : Instr) (s t : State), exec i s = .next t → t.flags.z = true → t.flags.n = true →
    (∃ a, i = .bitAbs a) ∨ (∃ a, i = .bitZp a) ∨ (s.flags.z = true ∧ s.flags.n = true)) ∧
  (∀ s : State, s.a = 0x0F#8 → 0x0010 < s.mem.len.val → s.mem.byteAt 0x0010 = 0xF0#8 →
    ∃ t, exec (.bitAbs 0x0010#16) s = .next t ∧ t.flags.z = true ∧ t.flags.n = true ∧ t.flags.v = true)

/-! ### Clear flags -/

/-- CLC, CLD, CLI, CLV (R110 to R113): each sets its flag false and changes nothing else; its word; CLV's worked
example, after which BVS is not taken. -/
def Obligations.ClearsSetTheirOneFlagFalse : Prop :=
  (∀ s : State,
    exec .clc s = .next { s with flags := { s.flags with c := false } } ∧
    exec .cld s = .next { s with flags := { s.flags with d := false } } ∧
    exec .cli s = .next { s with flags := { s.flags with i := false } } ∧
    exec .clv s = .next { s with flags := { s.flags with v := false } }) ∧
  encode .clc = 0xF00000#24 ∧ encode .cld = 0xF00003#24 ∧ encode .cli = 0xF00002#24 ∧ encode .clv = 0xF00005#24 ∧
  (∀ s : State, s.flags.v = true → s.pc = 0x0200#16 →
    ∃ t, exec .clv s = .next t ∧ t.flags.v = false ∧ exec (.bvs 16) t = .next t ∧ t.pc = 0x0200#16)

/-- The generic clear (R114): four of its words are the named clears; the three others raise UnsupportedClearFlag with
the flag, in every state, and change nothing; selector 7 is refused. -/
def Obligations.UnclearableFlagsAlwaysRaise : Prop :=
  (∀ s : State, Rejects .clrfZero s (.unsupportedClearFlag .zero) ∧ Rejects .clrfBreak s (.unsupportedClearFlag .brk) ∧
    Rejects .clrfNegative s (.unsupportedClearFlag .negative)) ∧
  (∀ s : State, exec .clc s = .next (s.setFlags { s.flags with c := false }) ∧
    exec .cld s = .next (s.setFlags { s.flags with d := false }) ∧
    exec .cli s = .next (s.setFlags { s.flags with i := false }) ∧
    exec .clv s = .next (s.setFlags { s.flags with v := false })) ∧
  encode .clrfZero = 0xF00001#24 ∧ encode .clrfBreak = 0xF00004#24 ∧ encode .clrfNegative = 0xF00006#24 ∧
  decode 0xF00007#24 = .error .selectorSeven

/-- Clears are idempotent and commute (R116), and none of the seven words of the family raises UnsupportedMode or
OutOfRange. -/
def Obligations.ClearsAreIdempotentAndCommute : Prop :=
  (∀ i ∈ clears, ∀ s : State, ∃ t, exec i s = .next t ∧ exec i t = .next t) ∧
  (∀ i ∈ clears, ∀ j ∈ clears, ∀ s : State, ∃ t u w, exec i s = .next t ∧ exec j t = .next w ∧
    exec j s = .next u ∧ exec i u = .next w) ∧
  (∀ i ∈ [Instr.clc, .clrfZero, .cli, .cld, .clrfBreak, .clv, .clrfNegative], ∀ s : State,
    (∀ m, exec i s ≠ .fault (.unsupportedMode m)) ∧ (∀ a, exec i s ≠ .fault (.outOfRange a)))

/-- No operation sets I, D or B true (R17, R115): after any command that completes, each of the three is true only if it
was, and B is as it was. -/
def Obligations.NoCommandSetsInertFlags : Prop :=
  ∀ (i : Instr) (s t : State), exec i s = .next t →
    (t.flags.i = true → s.flags.i = true) ∧ (t.flags.d = true → s.flags.d = true) ∧ t.flags.b = s.flags.b ∧
    (t.flags.i ≠ s.flags.i → i = .cli) ∧ (t.flags.d ≠ s.flags.d → i = .cld)

/-! ### The whole block -/

/-- The frame rule (R5): a command that completes changes no field that its rule does not list under "writes", no byte of
memory, and nothing of the host's side. -/
def Obligations.CommandsChangeOnlyWhatTheyWrite : Prop :=
  ∀ (i : Instr) (s t : State), exec i s = .next t →
    (∀ f : Field, f ∉ writes i → sameField s t f = true) ∧
    (∀ a : Nat, t.mem.byteAt a = s.mem.byteAt a) ∧ t.mem.len = s.mem.len ∧ t.host = s.host

/-- No operation writes memory (R35): every byte reads after a command as before it. -/
def Obligations.NoCommandWritesMemory : Prop :=
  ∀ (i : Instr) (s t : State), exec i s = .next t →
    (∀ a : Nat, t.mem.byteAt a = s.mem.byteAt a) ∧ ∀ a : Addr, memRead t a = memRead s a

/-- The read primitive (R32): OutOfRange exactly at and beyond MEM_LEN, the cell's byte below it; with MEM_LEN 0 every
read faults, with 65536 none does. -/
def Obligations.MemReadFaultsAtAndBeyondTheLength : Prop :=
  ∀ (s : State) (a : Addr),
    (s.mem.len.val ≤ a.toNat → memRead s a = .error (.outOfRange a)) ∧
    (a.toNat < s.mem.len.val → memRead s a = .ok (s.mem.byteAt a.toNat)) ∧
    (s.mem.len.val = 0 → memRead s a = .error (.outOfRange a)) ∧
    (s.mem.len.val = 65536 → ∃ v, memRead s a = .ok v)

/-- zero_page is absolute (R73), for the three operations that support the two modes, in every state and for every
operand; ASL, which supports neither, raises UnsupportedMode with the mode it was given (R120; how R73 is read beside it is the
model's inference, log entry 10). -/
def Obligations.ZeroPageIsAbsolute : Prop :=
  ∀ (s : State) (a : Addr), exec (.adcZp a) s = exec (.adcAbs a) s ∧ exec (.andZp a) s = exec (.andAbs a) s ∧
    exec (.bitZp a) s = exec (.bitAbs a) s ∧ exec (.aslAbs a) s = .fault (.unsupportedMode .absolute) ∧
    exec (.aslZp a) s = .fault (.unsupportedMode .zeroPage)

/-- The mode check comes before the memory access (R76): ASL abs raises UnsupportedMode for every address, in range or
not, and ADC A whatever the operand field holds; no command raises both errors. -/
def Obligations.ModeIsCheckedBeforeMemory : Prop :=
  (∀ (s : State) (a : Addr), exec (.aslAbs a) s = .fault (.unsupportedMode .absolute)) ∧
  (∀ (s : State) (opr : Nat), opr < 65536 → ∃ i, decode (BitVec.ofNat 24 (0x0C0000 + opr)) = .ok i ∧
    exec i s = .fault (.unsupportedMode .accumulator)) ∧
  (∀ (i : Instr) (s s' : State) (m : Mode) (a : Addr),
    exec i s = .fault (.unsupportedMode m) → exec i s' ≠ .fault (.outOfRange a))

/-- The families read memory alike (R77): the nine memory forms raise OutOfRange for the same addresses, those at and
beyond MEM_LEN, and none of them raises anything else. -/
def Obligations.MemoryFormsFaultAlike : Prop :=
  ∀ i ∈ readers, ∀ (s : State) (a : Addr) (e : Fault),
    exec (i a) s = .fault e ↔ e = .outOfRange a ∧ s.mem.len.val ≤ a.toNat

/-- Which command can raise what, complete (R124): `exec` answers an error exactly where the table says, the one the
table says, and refuses nothing. -/
def Obligations.ErrorsAreExactlyTheTable : Prop :=
  ∀ (i : Instr) (s : State),
    (∀ e, exec i s = .fault e ↔ errorOf s.mem.len.val i = some e) ∧
    (∀ r, exec i s ≠ .refused r) ∧
    ((∃ t, exec i s = .next t) ↔ errorOf s.mem.len.val i = none)

/-- The software's one obligation (R148): a command completes exactly when its mode or flag is supported and its address
is in range. -/
def Obligations.AllowedCommandsComplete : Prop :=
  ∀ (i : Instr) (s : State), (∃ t, exec i s = .next t) ↔ allowed s.mem.len.val i = true

/-- Errors are precise (R126, R129): where the host goes on, the step of a command that raises an error leaves A, X, Y,
PC, SP, every flag, every byte of memory and MEM_LEN as they were, and the host's later moves untouched. The host's list of
moves and its policy as fields of State are the model's choice (log entries 2 and 5). -/
def Obligations.ErrorsLeaveTheStateUnchanged : Prop :=
  ∀ (s : State) (cw : CommandWord) (rest : List HostMove) (i : Instr) (e : Fault),
    s.host.moves = .issue cw :: rest → decode cw = .ok i → s.host.onError = .goOn → exec i s = .fault e →
      ∃ t, step s = .next t ∧ t = { s with host := t.host } ∧ t.host.moves = rest ∧
        t.host.replies = e.status :: s.host.replies

/-- I, D and B have no behavioural effect (R18): two states that differ only in them step to the same outcome, and to
states that differ only in them; no command writes B. -/
def Obligations.InertFlagsHaveNoEffect : Prop :=
  ∀ s s' : State, eraseInert s = eraseInert s' →
    (∀ i : Instr, mapNext eraseInert (exec i s) = mapNext eraseInert (exec i s')) ∧
    mapNext eraseInert (step s) = mapNext eraseInert (step s') ∧
    ∀ (i : Instr) (t : State), exec i s = .next t → t.flags.b = s.flags.b

/-- SP is neither read nor written (R14): every command does the same whatever SP holds, and keeps it. -/
def Obligations.StackPointerIsNeverUsed : Prop :=
  ∀ (i : Instr) (s : State) (v : BitVec 16),
    exec i (s.setSp v) = mapNext (fun t => t.setSp v) (exec i s) ∧ ∀ t, exec i s = .next t → t.sp = s.sp

/-- X is read by CPX only and Y by CPY only, and no command writes them (R11, R12, R104, R105). -/
def Obligations.IndexRegistersAreReadOnlyByTheirCompares : Prop :=
  ∀ (i : Instr) (s : State) (v : Byte),
    ((∀ a, i ≠ .cpx a) → exec i (s.setX v) = mapNext (fun t => t.setX v) (exec i s)) ∧
    ((∀ a, i ≠ .cpy a) → exec i (s.setY v) = mapNext (fun t => t.setY v) (exec i s)) ∧
    ∀ t, exec i s = .next t → t.x = s.x ∧ t.y = s.y

/-- A host that keeps to R148 never sees a stop: from every state whose remaining moves are allowed commands and writes
of fields that exist, a run of any length answers a next state, and hands over status Ok only. The host's list of moves and
the list of statuses are the model's choice (log entries 2 and 5). -/
def Obligations.WellBehavedHostNeverStops : Prop :=
  ∀ s : State, s.behaved = true → ∀ k : Nat, runsSafely k s ∧
    ∀ t, Host.Core.run Sys2Proof.core k s = .next t →
      ∃ n ≤ k, t.host.replies = List.replicate n Status.ok ++ s.host.replies

/-- A host that goes on after errors is never stopped by one (R129): if its remaining moves are words that decode and
writes of fields that exist, a run of any length answers a next state. The host's list of moves and its policy as fields of
State are the model's choice (log entries 2 and 5). -/
def Obligations.HostThatGoesOnIsNeverStopped : Prop :=
  ∀ s : State, s.host.onError = .goOn → s.host.moves.all (takenMove s.mem.len.val) = true →
    ∀ k : Nat, runsSafely k s
end

