-- ==== Sys2Proof/Laws/Decode.lean ====
section
/-! SUPPORT. The fields of a command word built from fields, and the range of a displacement. -/

namespace Sys2Proof

/-- The bits of a command word, field by field. -/
theorem getLsbD_commandWord (op : BitVec 4) (mode : BitVec 2) (opr : BitVec 16) (i : Nat) :
    (commandWord op mode opr).getLsbD i =
      if i < 16 then opr.getLsbD i else if i < 18 then false
      else if i < 20 then mode.getLsbD (i - 18) else op.getLsbD (i - 20) := by
  change (op ++ mode ++ 0#2 ++ opr : BitVec (4 + 2 + 2 + 16)).getLsbD i = _
  simp only [BitVec.getLsbD_append, BitVec.getLsbD_zero]
  split
  · rfl
  · next h1 =>
    by_cases h2 : i < 18
    · rw [if_pos (by omega), if_pos h2]
    · rw [if_neg (by omega), if_neg h2]
      by_cases h3 : i < 20
      · rw [if_pos (by omega), if_pos h3]; congr 1
      · rw [if_neg (by omega), if_neg h3]; congr 1

variable (op : BitVec 4) (mode : BitVec 2) (opr : BitVec 16)

theorem commandWord_toNat :
    (commandWord op mode opr).toNat = op.toNat * 2 ^ 20 + mode.toNat * 2 ^ 18 + opr.toNat := by
  have h1 := op.isLt; have h2 := mode.isLt; have h3 := opr.isLt
  simp only [commandWord, BitVec.toNat_append, BitVec.toNat_ofNat]
  rw [← Nat.shiftLeft_add_eq_or_of_lt h3, ← Nat.shiftLeft_add_eq_or_of_lt (by decide : 0 % 2 ^ 2 < 2 ^ 2),
    ← Nat.shiftLeft_add_eq_or_of_lt h2]
  simp only [Nat.shiftLeft_eq]
  omega

@[simp] theorem cwOp_commandWord : cwOp (commandWord op mode opr) = op := by
  have h1 := op.isLt; have h2 := mode.isLt; have h3 := opr.isLt
  apply BitVec.eq_of_toNat_eq
  simp only [cwOp, BitVec.extractLsb'_toNat, commandWord_toNat, Nat.shiftRight_eq_div_pow]
  omega

@[simp] theorem cwMode_commandWord : cwMode (commandWord op mode opr) = mode := by
  have h1 := op.isLt; have h2 := mode.isLt; have h3 := opr.isLt
  apply BitVec.eq_of_toNat_eq
  simp only [cwMode, BitVec.extractLsb'_toNat, commandWord_toNat, Nat.shiftRight_eq_div_pow]
  omega

@[simp] theorem cwRsv_commandWord : cwRsv (commandWord op mode opr) = 0#2 := by
  have h1 := op.isLt; have h2 := mode.isLt; have h3 := opr.isLt
  apply BitVec.eq_of_toNat_eq
  simp only [cwRsv, BitVec.extractLsb'_toNat, commandWord_toNat, Nat.shiftRight_eq_div_pow, BitVec.toNat_ofNat]
  omega

@[simp] theorem cwOpr_commandWord : cwOpr (commandWord op mode opr) = opr := by
  have h1 := op.isLt; have h2 := mode.isLt; have h3 := opr.isLt
  apply BitVec.eq_of_toNat_eq
  simp only [cwOpr, BitVec.extractLsb'_toNat, commandWord_toNat, Nat.shiftRight_eq_div_pow]
  omega

/-- A command word with `rsv` 0 is the word of its own fields. -/
theorem commandWord_fields {cw : CommandWord} (h : cwRsv cw = 0) :
    commandWord (cwOp cw) (cwMode cw) (cwOpr cw) = cw := by
  have h0 := cw.isLt
  apply BitVec.eq_of_toNat_eq
  have h' := congrArg BitVec.toNat h
  simp only [cwRsv, BitVec.extractLsb'_toNat, Nat.shiftRight_eq_div_pow, BitVec.ofNat_eq_ofNat, BitVec.toNat_ofNat] at h'
  simp only [commandWord_toNat, cwOp, cwMode, cwOpr, BitVec.extractLsb'_toNat, Nat.shiftRight_eq_div_pow]
  omega

/-- A word built from fields decodes by its fields (30_encoding.md R57). -/
@[simp] theorem decode_commandWord : decode (commandWord op mode opr) = decodeOp op mode opr := by
  simp [decode]

theorem displacementInRange_iff {d : Int} : displacementInRange d = true ↔ -32768 ≤ d ∧ d ≤ 32767 := by
  simp [displacementInRange]

/-- A displacement in range is read back from the 16 bits that carry it (30_encoding.md R59). -/
theorem toInt_ofInt_of_inRange {d : Int} (h : displacementInRange d = true) : (BitVec.ofInt 16 d).toInt = d := by
  obtain ⟨h1, h2⟩ := displacementInRange_iff.mp h
  rw [BitVec.toInt_ofInt]
  exact Int.bmod_eq_of_le (by omega) (by omega)

end Sys2Proof
end

