-- ==== Sys2Proof/Laws/Flags.lean ====
section
/-! SUPPORT. What each flag computation does to each of the seven flags, and the arithmetic reading of each computed
flag as a fact about numbers. -/

namespace Sys2Proof.Machine

variable (fl : Flags) (a v m reg r : Byte)

@[simp] theorem Flags.afterAdd_c : (fl.afterAdd a v).c = addCarry a v := rfl
@[simp] theorem Flags.afterAdd_z : (fl.afterAdd a v).z = isZero (addResult a v) := rfl
@[simp] theorem Flags.afterAdd_i : (fl.afterAdd a v).i = fl.i := rfl
@[simp] theorem Flags.afterAdd_d : (fl.afterAdd a v).d = fl.d := rfl
@[simp] theorem Flags.afterAdd_b : (fl.afterAdd a v).b = fl.b := rfl
@[simp] theorem Flags.afterAdd_v : (fl.afterAdd a v).v = addOverflow a v := rfl
@[simp] theorem Flags.afterAdd_n : (fl.afterAdd a v).n = signBit (addResult a v) := rfl

@[simp] theorem Flags.afterAnd_c : (fl.afterAnd r).c = fl.c := rfl
@[simp] theorem Flags.afterAnd_z : (fl.afterAnd r).z = isZero r := rfl
@[simp] theorem Flags.afterAnd_i : (fl.afterAnd r).i = fl.i := rfl
@[simp] theorem Flags.afterAnd_d : (fl.afterAnd r).d = fl.d := rfl
@[simp] theorem Flags.afterAnd_b : (fl.afterAnd r).b = fl.b := rfl
@[simp] theorem Flags.afterAnd_v : (fl.afterAnd r).v = fl.v := rfl
@[simp] theorem Flags.afterAnd_n : (fl.afterAnd r).n = signBit r := rfl

@[simp] theorem Flags.afterShift_c : (fl.afterShift a).c = shiftCarry a := rfl
@[simp] theorem Flags.afterShift_z : (fl.afterShift a).z = isZero (shiftResult a) := rfl
@[simp] theorem Flags.afterShift_i : (fl.afterShift a).i = fl.i := rfl
@[simp] theorem Flags.afterShift_d : (fl.afterShift a).d = fl.d := rfl
@[simp] theorem Flags.afterShift_b : (fl.afterShift a).b = fl.b := rfl
@[simp] theorem Flags.afterShift_v : (fl.afterShift a).v = fl.v := rfl
@[simp] theorem Flags.afterShift_n : (fl.afterShift a).n = signBit (shiftResult a) := rfl

@[simp] theorem Flags.afterBit_c : (fl.afterBit a m).c = fl.c := rfl
@[simp] theorem Flags.afterBit_z : (fl.afterBit a m).z = isZero (a &&& m) := rfl
@[simp] theorem Flags.afterBit_i : (fl.afterBit a m).i = fl.i := rfl
@[simp] theorem Flags.afterBit_d : (fl.afterBit a m).d = fl.d := rfl
@[simp] theorem Flags.afterBit_b : (fl.afterBit a m).b = fl.b := rfl
@[simp] theorem Flags.afterBit_v : (fl.afterBit a m).v = m.getLsbD 6 := rfl
@[simp] theorem Flags.afterBit_n : (fl.afterBit a m).n = m.getLsbD 7 := rfl

@[simp] theorem Flags.afterCompare_c : (fl.afterCompare reg m).c = decide (0 < compareDiff reg m) := rfl
@[simp] theorem Flags.afterCompare_z : (fl.afterCompare reg m).z = decide (compareDiff reg m = 0) := rfl
@[simp] theorem Flags.afterCompare_i : (fl.afterCompare reg m).i = fl.i := rfl
@[simp] theorem Flags.afterCompare_d : (fl.afterCompare reg m).d = fl.d := rfl
@[simp] theorem Flags.afterCompare_b : (fl.afterCompare reg m).b = fl.b := rfl
@[simp] theorem Flags.afterCompare_v : (fl.afterCompare reg m).v = fl.v := rfl
@[simp] theorem Flags.afterCompare_n : (fl.afterCompare reg m).n = decide (compareDiff reg m < 0) := rfl

/-- The sign bit of a byte is the top half of its range. -/
theorem signBit_iff : signBit a = true ↔ 128 ≤ a.toNat := by
  have ha := a.isLt
  rw [signBit, ← BitVec.testBit_toNat, Nat.testBit_eq_decide_div_mod_eq]
  simp only [decide_eq_true_eq]
  omega

theorem isZero_iff : isZero r = true ↔ r.toNat = 0 := by
  simp [isZero, ← BitVec.toNat_inj]

theorem addResult_toNat : (addResult a v).toNat = (a.toNat + v.toNat) % 256 := by
  simp [addResult, addRaw]

theorem addCarry_iff : addCarry a v = true ↔ 256 ≤ a.toNat + v.toNat :=
  decide_eq_true_iff

theorem shiftResult_toNat : (shiftResult a).toNat = (2 * a.toNat) % 256 := by
  simp [shiftResult, shiftRaw, Nat.shiftLeft_eq, Nat.mul_comm]

/-- ASL's carry is the old bit 7 (41_alu.md R84). -/
theorem shiftCarry_eq_signBit : shiftCarry a = signBit a := by
  have ha := a.isLt
  rw [Bool.eq_iff_iff, signBit_iff, shiftCarry, shiftRaw, Nat.shiftLeft_eq, Nat.testBit_eq_decide_div_mod_eq]
  simp only [decide_eq_true_eq]
  omega

theorem compareDiff_pos_iff : 0 < compareDiff reg m ↔ m.toNat < reg.toNat := by
  unfold compareDiff; omega

theorem compareDiff_zero_iff : compareDiff reg m = 0 ↔ reg = m := by
  rw [← BitVec.toNat_inj]; unfold compareDiff; omega

theorem compareDiff_neg_iff : compareDiff reg m < 0 ↔ reg.toNat < m.toNat := by
  unfold compareDiff; omega

end Sys2Proof.Machine
end

