-- ==== Sys2Proof/Laws/State.lean ====
section
/-! SUPPORT. What each named update does to each field of State, so that no later proof unfolds a record update. -/

namespace Sys2Proof.Machine

variable (s : State)

/-! ### setA -/

@[simp] theorem State.setA_a (v : Byte) : (s.setA v).a = v := rfl
@[simp] theorem State.setA_x (v : Byte) : (s.setA v).x = s.x := rfl
@[simp] theorem State.setA_y (v : Byte) : (s.setA v).y = s.y := rfl
@[simp] theorem State.setA_pc (v : Byte) : (s.setA v).pc = s.pc := rfl
@[simp] theorem State.setA_sp (v : Byte) : (s.setA v).sp = s.sp := rfl
@[simp] theorem State.setA_flags (v : Byte) : (s.setA v).flags = s.flags := rfl
@[simp] theorem State.setA_mem (v : Byte) : (s.setA v).mem = s.mem := rfl
@[simp] theorem State.setA_host (v : Byte) : (s.setA v).host = s.host := rfl

/-! ### setX -/

@[simp] theorem State.setX_a (v : Byte) : (s.setX v).a = s.a := rfl
@[simp] theorem State.setX_x (v : Byte) : (s.setX v).x = v := rfl
@[simp] theorem State.setX_y (v : Byte) : (s.setX v).y = s.y := rfl
@[simp] theorem State.setX_pc (v : Byte) : (s.setX v).pc = s.pc := rfl
@[simp] theorem State.setX_sp (v : Byte) : (s.setX v).sp = s.sp := rfl
@[simp] theorem State.setX_flags (v : Byte) : (s.setX v).flags = s.flags := rfl
@[simp] theorem State.setX_mem (v : Byte) : (s.setX v).mem = s.mem := rfl
@[simp] theorem State.setX_host (v : Byte) : (s.setX v).host = s.host := rfl

/-! ### setY -/

@[simp] theorem State.setY_a (v : Byte) : (s.setY v).a = s.a := rfl
@[simp] theorem State.setY_x (v : Byte) : (s.setY v).x = s.x := rfl
@[simp] theorem State.setY_y (v : Byte) : (s.setY v).y = v := rfl
@[simp] theorem State.setY_pc (v : Byte) : (s.setY v).pc = s.pc := rfl
@[simp] theorem State.setY_sp (v : Byte) : (s.setY v).sp = s.sp := rfl
@[simp] theorem State.setY_flags (v : Byte) : (s.setY v).flags = s.flags := rfl
@[simp] theorem State.setY_mem (v : Byte) : (s.setY v).mem = s.mem := rfl
@[simp] theorem State.setY_host (v : Byte) : (s.setY v).host = s.host := rfl

/-! ### setPc -/

@[simp] theorem State.setPc_a (v : BitVec 16) : (s.setPc v).a = s.a := rfl
@[simp] theorem State.setPc_x (v : BitVec 16) : (s.setPc v).x = s.x := rfl
@[simp] theorem State.setPc_y (v : BitVec 16) : (s.setPc v).y = s.y := rfl
@[simp] theorem State.setPc_pc (v : BitVec 16) : (s.setPc v).pc = v := rfl
@[simp] theorem State.setPc_sp (v : BitVec 16) : (s.setPc v).sp = s.sp := rfl
@[simp] theorem State.setPc_flags (v : BitVec 16) : (s.setPc v).flags = s.flags := rfl
@[simp] theorem State.setPc_mem (v : BitVec 16) : (s.setPc v).mem = s.mem := rfl
@[simp] theorem State.setPc_host (v : BitVec 16) : (s.setPc v).host = s.host := rfl

/-! ### setSp -/

@[simp] theorem State.setSp_a (v : BitVec 16) : (s.setSp v).a = s.a := rfl
@[simp] theorem State.setSp_x (v : BitVec 16) : (s.setSp v).x = s.x := rfl
@[simp] theorem State.setSp_y (v : BitVec 16) : (s.setSp v).y = s.y := rfl
@[simp] theorem State.setSp_pc (v : BitVec 16) : (s.setSp v).pc = s.pc := rfl
@[simp] theorem State.setSp_sp (v : BitVec 16) : (s.setSp v).sp = v := rfl
@[simp] theorem State.setSp_flags (v : BitVec 16) : (s.setSp v).flags = s.flags := rfl
@[simp] theorem State.setSp_mem (v : BitVec 16) : (s.setSp v).mem = s.mem := rfl
@[simp] theorem State.setSp_host (v : BitVec 16) : (s.setSp v).host = s.host := rfl

/-! ### setFlags -/

@[simp] theorem State.setFlags_a (v : Flags) : (s.setFlags v).a = s.a := rfl
@[simp] theorem State.setFlags_x (v : Flags) : (s.setFlags v).x = s.x := rfl
@[simp] theorem State.setFlags_y (v : Flags) : (s.setFlags v).y = s.y := rfl
@[simp] theorem State.setFlags_pc (v : Flags) : (s.setFlags v).pc = s.pc := rfl
@[simp] theorem State.setFlags_sp (v : Flags) : (s.setFlags v).sp = s.sp := rfl
@[simp] theorem State.setFlags_flags (v : Flags) : (s.setFlags v).flags = v := rfl
@[simp] theorem State.setFlags_mem (v : Flags) : (s.setFlags v).mem = s.mem := rfl
@[simp] theorem State.setFlags_host (v : Flags) : (s.setFlags v).host = s.host := rfl

/-! ### setMem -/

@[simp] theorem State.setMem_a (v : Memory) : (s.setMem v).a = s.a := rfl
@[simp] theorem State.setMem_x (v : Memory) : (s.setMem v).x = s.x := rfl
@[simp] theorem State.setMem_y (v : Memory) : (s.setMem v).y = s.y := rfl
@[simp] theorem State.setMem_pc (v : Memory) : (s.setMem v).pc = s.pc := rfl
@[simp] theorem State.setMem_sp (v : Memory) : (s.setMem v).sp = s.sp := rfl
@[simp] theorem State.setMem_flags (v : Memory) : (s.setMem v).flags = s.flags := rfl
@[simp] theorem State.setMem_mem (v : Memory) : (s.setMem v).mem = v := rfl
@[simp] theorem State.setMem_host (v : Memory) : (s.setMem v).host = s.host := rfl

/-! ### setHost -/

@[simp] theorem State.setHost_a (v : HostSide) : (s.setHost v).a = s.a := rfl
@[simp] theorem State.setHost_x (v : HostSide) : (s.setHost v).x = s.x := rfl
@[simp] theorem State.setHost_y (v : HostSide) : (s.setHost v).y = s.y := rfl
@[simp] theorem State.setHost_pc (v : HostSide) : (s.setHost v).pc = s.pc := rfl
@[simp] theorem State.setHost_sp (v : HostSide) : (s.setHost v).sp = s.sp := rfl
@[simp] theorem State.setHost_flags (v : HostSide) : (s.setHost v).flags = s.flags := rfl
@[simp] theorem State.setHost_mem (v : HostSide) : (s.setHost v).mem = s.mem := rfl
@[simp] theorem State.setHost_host (v : HostSide) : (s.setHost v).host = v := rfl

/-! ### The host's side -/

@[simp] theorem State.setMoves_a (v : List HostMove) : (s.setMoves v).a = s.a := rfl
@[simp] theorem State.setMoves_x (v : List HostMove) : (s.setMoves v).x = s.x := rfl
@[simp] theorem State.setMoves_y (v : List HostMove) : (s.setMoves v).y = s.y := rfl
@[simp] theorem State.setMoves_pc (v : List HostMove) : (s.setMoves v).pc = s.pc := rfl
@[simp] theorem State.setMoves_sp (v : List HostMove) : (s.setMoves v).sp = s.sp := rfl
@[simp] theorem State.setMoves_flags (v : List HostMove) : (s.setMoves v).flags = s.flags := rfl
@[simp] theorem State.setMoves_mem (v : List HostMove) : (s.setMoves v).mem = s.mem := rfl
@[simp] theorem State.setMoves_host_moves (v : List HostMove) : (s.setMoves v).host.moves = v := rfl
@[simp] theorem State.setMoves_host_onError (v : List HostMove) : (s.setMoves v).host.onError = s.host.onError := rfl
@[simp] theorem State.setMoves_host_replies (v : List HostMove) : (s.setMoves v).host.replies = s.host.replies := rfl
@[simp] theorem State.reply_a (v : Status) : (s.reply v).a = s.a := rfl
@[simp] theorem State.reply_x (v : Status) : (s.reply v).x = s.x := rfl
@[simp] theorem State.reply_y (v : Status) : (s.reply v).y = s.y := rfl
@[simp] theorem State.reply_pc (v : Status) : (s.reply v).pc = s.pc := rfl
@[simp] theorem State.reply_sp (v : Status) : (s.reply v).sp = s.sp := rfl
@[simp] theorem State.reply_flags (v : Status) : (s.reply v).flags = s.flags := rfl
@[simp] theorem State.reply_mem (v : Status) : (s.reply v).mem = s.mem := rfl
@[simp] theorem State.reply_host_moves (v : Status) : (s.reply v).host.moves = s.host.moves := rfl
@[simp] theorem State.reply_host_onError (v : Status) : (s.reply v).host.onError = s.host.onError := rfl
@[simp] theorem State.reply_host_replies (v : Status) : (s.reply v).host.replies = v :: s.host.replies := rfl

/-- Two states with the same fields are the same state. -/
theorem State.ext_fields {s t : State} (ha : s.a = t.a) (hx : s.x = t.x) (hy : s.y = t.y) (hpc : s.pc = t.pc)
    (hsp : s.sp = t.sp) (hf : s.flags = t.flags) (hm : s.mem = t.mem) (hh : s.host = t.host) : s = t := by
  cases s; cases t; simp_all

/-! ### One flag of the seven -/

/-- Writing a flag and reading it back; the six others are kept (10_state.md R16). -/
@[simp] theorem Flags.get_put (fl : Flags) (f g : Flag) (v : Bool) :
    (fl.put f v).get g = if g = f then v else fl.get g := by
  cases f <;> cases g <;> rfl

/-- Two status registers with the same seven flags are the same. -/
theorem Flags.ext_get {fl gl : Flags} (h : ∀ f, fl.get f = gl.get f) : fl = gl := by
  have hc := h .carry; have hz := h .zero; have hi := h .interruptDisable; have hd := h .decimal
  have hb := h .brk; have hv := h .overflow; have hn := h .negative
  cases fl; cases gl; simp_all [Flags.get]

end Sys2Proof.Machine
end

