-- ==== Sys2Proof/Laws/Memory.lean ====
section
/-! SUPPORT. The laws of memory: a read after a write, the canonical form kept by every operation, and what the one
read primitive can answer. -/

namespace Sys2Proof.Machine

/-! ### Cells -/

theorem cellsWf_cons {len lo k : Nat} {v : Byte} {rest : List Host.Cell} :
    cellsWf len lo ((k, v) :: rest) = true ↔
      lo ≤ k ∧ k < len ∧ v ≠ Config.unlistedByte ∧ cellsWf len (k + 1) rest = true := by
  simp [cellsWf, and_assoc]

/-- A canonical list from `lo` is canonical from any lower bound. -/
theorem cellsWf_lower {len lo lo' : Nat} {cells : List Host.Cell} (h : cellsWf len lo cells = true) (hlo : lo' ≤ lo) :
    cellsWf len lo' cells = true := by
  cases cells with
  | nil => rfl
  | cons c rest =>
    obtain ⟨h1, h2, h3, h4⟩ := cellsWf_cons.mp h
    exact cellsWf_cons.mpr ⟨by omega, h2, h3, h4⟩

/-- Below its lower bound a canonical list gives what an unlisted cell holds. -/
theorem lookupCell_below {len lo a : Nat} {cells : List Host.Cell} (h : cellsWf len lo cells = true) (ha : a < lo) :
    lookupCell cells a = Config.unlistedByte := by
  induction cells generalizing lo with
  | nil => rfl
  | cons c rest ih =>
    obtain ⟨h1, _, _, h4⟩ := cellsWf_cons.mp h
    rw [lookupCell, if_neg (by omega)]
    exact ih h4 (by omega)

theorem cellsWf_consCell {len lo a : Nat} {b : Byte} {rest : List Host.Cell} (hlo : lo ≤ a) (hlen : a < len)
    (h : cellsWf len (a + 1) rest = true) : cellsWf len lo (consCell a b rest) = true := by
  unfold consCell
  split
  · exact cellsWf_lower h (by omega)
  · exact cellsWf_cons.mpr ⟨hlo, hlen, ‹_›, h⟩

/-- Writing a cell below MEM_LEN keeps the canonical form. -/
theorem cellsWf_insertCell {len lo a : Nat} {b : Byte} {cells : List Host.Cell} (h : cellsWf len lo cells = true)
    (hlo : lo ≤ a) (hlen : a < len) : cellsWf len lo (insertCell cells a b) = true := by
  induction cells generalizing lo with
  | nil => exact cellsWf_consCell hlo hlen rfl
  | cons c rest ih =>
    obtain ⟨h1, h2, h3, h4⟩ := cellsWf_cons.mp h
    rw [insertCell]
    split
    · exact cellsWf_consCell hlo hlen (cellsWf_cons.mpr ⟨by omega, h2, h3, h4⟩)
    · split
      · next heq => subst heq; exact cellsWf_consCell hlo hlen h4
      · exact cellsWf_cons.mpr ⟨h1, h2, h3, ih h4 (by omega)⟩

theorem lookupCell_consCell {len a c : Nat} {b : Byte} {rest : List Host.Cell} (h : cellsWf len (a + 1) rest = true) :
    lookupCell (consCell a b rest) c = if c = a then b else lookupCell rest c := by
  unfold consCell
  split
  · next hb =>
    split
    · next hc => rw [hb, hc]; exact lookupCell_below h (by omega)
    · rfl
  · simp [lookupCell, eq_comm]

/-- A read after a write of a cell: the byte written there, what was there before elsewhere. -/
theorem lookupCell_insertCell {len lo a c : Nat} {b : Byte} {cells : List Host.Cell}
    (h : cellsWf len lo cells = true) :
    lookupCell (insertCell cells a b) c = if c = a then b else lookupCell cells c := by
  induction cells generalizing lo with
  | nil => rw [insertCell, lookupCell_consCell (len := len) rfl]
  | cons x rest ih =>
    obtain ⟨_, h2, h3, h4⟩ := cellsWf_cons.mp h
    rw [insertCell]
    split
    · next hlt => rw [lookupCell_consCell (len := len) (cellsWf_cons.mpr ⟨by omega, h2, h3, h4⟩)]
    · split
      · next heq =>
        subst heq
        rw [lookupCell_consCell h4, lookupCell]
        split
        · rfl
        · next hne => rw [if_neg fun h => hne h.symm]
      · next hne =>
        rw [lookupCell, lookupCell, ih h4]
        split
        · next hk => rw [if_neg]; omega
        · rfl

/-! ### Memories -/

@[simp] theorem Memory.setByte_len (m : Memory) (a : Nat) (v : Byte) : (m.setByte a v).len = m.len := rfl

@[simp] theorem Memory.has_iff {m : Memory} {a : Addr} : m.has a = true ↔ a.toNat < m.len.val := by simp [Memory.has]

/-- Every write of a cell that exists keeps the canonical form. -/
theorem Memory.wf_setByte {m : Memory} {a : Nat} {v : Byte} (h : m.wf = true) (ha : a < m.len.val) :
    (m.setByte a v).wf = true :=
  cellsWf_insertCell h (Nat.zero_le a) ha

/-- A read after a write: the byte written at its address, the byte before at every other. -/
theorem Memory.byteAt_setByte {m : Memory} {a c : Nat} {v : Byte} (h : m.wf = true) :
    (m.setByte a v).byteAt c = if c = a then v else m.byteAt c :=
  lookupCell_insertCell h

/-- What `MemRead` answers for a cell that exists (20_memory.md R32). -/
theorem memRead_inside {s : State} {a : Addr} (h : a.toNat < s.mem.len.val) :
    memRead s a = .ok (s.mem.byteAt a.toNat) := by
  simp [memRead, Memory.has, h]

/-- What `MemRead` answers at and beyond MEM_LEN (20_memory.md R32). -/
theorem memRead_outside {s : State} {a : Addr} (h : s.mem.len.val ≤ a.toNat) :
    memRead s a = .error (.outOfRange a) := by
  simp [memRead, Memory.has, Nat.not_lt.mpr h]

/-- The memory of the state after reset is canonical. -/
theorem reset_mem_wf : State.reset.mem.wf = true := rfl

end Sys2Proof.Machine
end

