-- ==== Sys2Proof/Laws/Exec.lean ====
section
/-! SUPPORT. What each shared operation can do, said once: the multiplexer, the two shapes of operand, the branch, the
clear. A proof about an instruction cites these and unfolds no callee. -/

namespace Sys2Proof.Machine

variable (supp : List Mode) (s : State) (write : Byte → State)

/-- An unsupported mode raises UnsupportedMode before any read (40_addressing.md R76). -/
theorem withOperand_unsupported {src : Source} (h : src.mode ∉ supp) :
    withOperand supp src s write = .fault (.unsupportedMode src.mode) := by
  simp [withOperand, resolve, h, raiseError]

theorem withOperand_immediate (h : Mode.immediate ∈ supp) (n : Byte) :
    withOperand supp (.immediate n) s write = .next (write n) := by
  simp [withOperand, resolve, Source.mode, h, fetchSource, Resolved.input]

theorem withOperand_accumulator (h : Mode.accumulator ∈ supp) :
    withOperand supp .accumulator s write = .next (write s.a) := by
  simp [withOperand, resolve, Source.mode, h, fetchSource, Resolved.input]

/-- The shape of format A, in range or not (20_memory.md R32). -/
theorem withMemory_eq (a : Addr) :
    withMemory a s write =
      if a.toNat < s.mem.len.val then .next (write (s.mem.byteAt a.toNat)) else .fault (.outOfRange a) := by
  by_cases h : a.toNat < s.mem.len.val
  · simp [withMemory, memRead_inside h, h]
  · simp [withMemory, memRead_outside (Nat.not_lt.mp h), h, raiseError]

/-- `absolute`, where supported, is the plain memory read (40_addressing.md R72). -/
theorem withOperand_absolute (h : Mode.absolute ∈ supp) (a : Addr) :
    withOperand supp (.absolute a) s write = withMemory a s write := by
  simp only [withOperand, resolve, Source.mode, h, if_true, fetchSource, withMemory]
  cases memRead s a <;> rfl

/-- `zero_page`, where supported, is the same memory read (40_addressing.md R73). -/
theorem withOperand_zeroPage (h : Mode.zeroPage ∈ supp) (a : Addr) :
    withOperand supp (.zeroPage a) s write = withMemory a s write := by
  simp only [withOperand, resolve, Source.mode, h, if_true, fetchSource, withMemory]
  cases memRead s a <;> rfl

/-- A branch always completes, and writes PC only when taken (42_branch.md R90). -/
theorem branchWhen_eq (taken : Bool) (d : Int) :
    branchWhen taken d s = .next (s.setPc (if taken then branchTarget s.pc d else s.pc)) := by
  cases taken <;> rfl

/-- The target as a number: `(PC + d) mod 65536` (42_branch.md R90). -/
theorem branchTarget_toNat (pc : BitVec 16) (d : Int) :
    ((branchTarget pc d).toNat : Int) = ((pc.toNat : Int) + d) % 65536 := by
  simp only [branchTarget, BitVec.toNat_ofInt]
  omega

/-- A clear completes on the four clearable flags and raises on the three others (44_clear_flag.md R114). -/
theorem clearFlag_eq (f : Flag) :
    clearFlag f s =
      if clearable f then .next (s.setFlags (s.flags.put f false)) else .fault (.unsupportedClearFlag f) := rfl

/-- A next state of the memory shape is the write of some byte. -/
theorem withMemory_next {a : Addr} {t : State} (h : withMemory a s write = .next t) :
    a.toNat < s.mem.len.val ∧ t = write (s.mem.byteAt a.toNat) := by
  rw [withMemory_eq] at h
  split at h
  · cases h; exact ⟨‹_›, rfl⟩
  · cases h

/-! ### Every row of the opcode table, by its shared operation -/

theorem exec_adcImm (n : Byte) : exec (.adcImm n) s = .next (addInto s n) := rfl
theorem exec_adcAbs (a : Addr) : exec (.adcAbs a) s = withMemory a s (addInto s) :=
  withOperand_absolute _ _ _ (by decide) a
theorem exec_adcZp (a : Addr) : exec (.adcZp a) s = withMemory a s (addInto s) :=
  withOperand_zeroPage _ _ _ (by decide) a
theorem exec_adcAcc : exec .adcAcc s = .fault (.unsupportedMode .accumulator) := rfl
theorem exec_andImm (n : Byte) : exec (.andImm n) s = .next (andInto s n) := rfl
theorem exec_andAbs (a : Addr) : exec (.andAbs a) s = withMemory a s (andInto s) :=
  withOperand_absolute _ _ _ (by decide) a
theorem exec_andZp (a : Addr) : exec (.andZp a) s = withMemory a s (andInto s) :=
  withOperand_zeroPage _ _ _ (by decide) a
theorem exec_andAcc : exec .andAcc s = .fault (.unsupportedMode .accumulator) := rfl
theorem exec_aslImm (n : Byte) : exec (.aslImm n) s = .fault (.unsupportedMode .immediate) := rfl
theorem exec_aslAbs (a : Addr) : exec (.aslAbs a) s = .fault (.unsupportedMode .absolute) := rfl
theorem exec_aslZp (a : Addr) : exec (.aslZp a) s = .fault (.unsupportedMode .zeroPage) := rfl
theorem exec_aslAcc : exec .aslAcc s = .next (shiftInto s s.a) := rfl
theorem exec_bitImm (n : Byte) : exec (.bitImm n) s = .fault (.unsupportedMode .immediate) := rfl
theorem exec_bitAbs (a : Addr) : exec (.bitAbs a) s = withMemory a s (testInto s) :=
  withOperand_absolute _ _ _ (by decide) a
theorem exec_bitZp (a : Addr) : exec (.bitZp a) s = withMemory a s (testInto s) :=
  withOperand_zeroPage _ _ _ (by decide) a
theorem exec_bitAcc : exec .bitAcc s = .fault (.unsupportedMode .accumulator) := rfl
theorem exec_bcc (d : Int) : exec (.bcc d) s = branchWhen (!s.flags.c) d s := rfl
theorem exec_bcs (d : Int) : exec (.bcs d) s = branchWhen s.flags.c d s := rfl
theorem exec_beq (d : Int) : exec (.beq d) s = branchWhen s.flags.z d s := rfl
theorem exec_bne (d : Int) : exec (.bne d) s = branchWhen (!s.flags.z) d s := rfl
theorem exec_bmi (d : Int) : exec (.bmi d) s = branchWhen s.flags.n d s := rfl
theorem exec_bpl (d : Int) : exec (.bpl d) s = branchWhen (!s.flags.n) d s := rfl
theorem exec_bvc (d : Int) : exec (.bvc d) s = branchWhen (!s.flags.v) d s := rfl
theorem exec_bvs (d : Int) : exec (.bvs d) s = branchWhen s.flags.v d s := rfl
theorem exec_cmp (a : Addr) : exec (.cmp a) s = withMemory a s (compareInto s s.a) := rfl
theorem exec_cpx (a : Addr) : exec (.cpx a) s = withMemory a s (compareInto s s.x) := rfl
theorem exec_cpy (a : Addr) : exec (.cpy a) s = withMemory a s (compareInto s s.y) := rfl
theorem exec_clc : exec .clc s = clearFlag .carry s := rfl
theorem exec_clrfZero : exec .clrfZero s = clearFlag .zero s := rfl
theorem exec_cli : exec .cli s = clearFlag .interruptDisable s := rfl
theorem exec_cld : exec .cld s = clearFlag .decimal s := rfl
theorem exec_clrfBreak : exec .clrfBreak s = clearFlag .brk s := rfl
theorem exec_clv : exec .clv s = clearFlag .overflow s := rfl
theorem exec_clrfNegative : exec .clrfNegative s = clearFlag .negative s := rfl

/-- Everything a command that completes can do: one case per operation, with the next state it leaves. -/
theorem exec_next_cases {i : Instr} {s t : State} (h : exec i s = .next t) :
    (∃ v, ((∃ n, i = .adcImm n) ∨ (∃ a, i = .adcAbs a) ∨ (∃ a, i = .adcZp a)) ∧ t = addInto s v) ∨
    (∃ v, ((∃ n, i = .andImm n) ∨ (∃ a, i = .andAbs a) ∨ (∃ a, i = .andZp a)) ∧ t = andInto s v) ∨
    (i = .aslAcc ∧ t = shiftInto s s.a) ∨
    (∃ m, ((∃ a, i = .bitAbs a) ∨ (∃ a, i = .bitZp a)) ∧ t = testInto s m) ∨
    (∃ m reg, ((∃ a, i = .cmp a ∧ reg = s.a) ∨ (∃ a, i = .cpx a ∧ reg = s.x) ∨ (∃ a, i = .cpy a ∧ reg = s.y)) ∧
      t = compareInto s reg m) ∨
    (∃ d taken, (i = .bcc d ∧ taken = !s.flags.c ∨ i = .bcs d ∧ taken = s.flags.c ∨
        i = .beq d ∧ taken = s.flags.z ∨ i = .bne d ∧ taken = !s.flags.z ∨
        i = .bmi d ∧ taken = s.flags.n ∨ i = .bpl d ∧ taken = !s.flags.n ∨
        i = .bvc d ∧ taken = !s.flags.v ∨ i = .bvs d ∧ taken = s.flags.v) ∧
      t = s.setPc (if taken then branchTarget s.pc d else s.pc)) ∨
    (∃ f, (i = .clc ∧ f = .carry ∨ i = .cli ∧ f = .interruptDisable ∨ i = .cld ∧ f = .decimal ∨
        i = .clv ∧ f = .overflow) ∧ t = s.setFlags (s.flags.put f false)) := by
  cases i with
  | adcImm n => rw [exec_adcImm] at h; cases h; exact .inl ⟨_, .inl ⟨n, rfl⟩, rfl⟩
  | adcAbs a =>
    rw [exec_adcAbs] at h; exact .inl ⟨_, .inr (.inl ⟨a, rfl⟩), (withMemory_next _ _ h).2⟩
  | adcZp a =>
    rw [exec_adcZp] at h; exact .inl ⟨_, .inr (.inr ⟨a, rfl⟩), (withMemory_next _ _ h).2⟩
  | andImm n => rw [exec_andImm] at h; cases h; exact .inr (.inl ⟨_, .inl ⟨n, rfl⟩, rfl⟩)
  | andAbs a =>
    rw [exec_andAbs] at h; exact .inr (.inl ⟨_, .inr (.inl ⟨a, rfl⟩), (withMemory_next _ _ h).2⟩)
  | andZp a =>
    rw [exec_andZp] at h; exact .inr (.inl ⟨_, .inr (.inr ⟨a, rfl⟩), (withMemory_next _ _ h).2⟩)
  | aslAcc => rw [exec_aslAcc] at h; cases h; exact .inr (.inr (.inl ⟨rfl, rfl⟩))
  | bitAbs a =>
    rw [exec_bitAbs] at h
    exact .inr (.inr (.inr (.inl ⟨_, .inl ⟨a, rfl⟩, (withMemory_next _ _ h).2⟩)))
  | bitZp a =>
    rw [exec_bitZp] at h
    exact .inr (.inr (.inr (.inl ⟨_, .inr ⟨a, rfl⟩, (withMemory_next _ _ h).2⟩)))
  | cmp a =>
    exact .inr (.inr (.inr (.inr (.inl ⟨_, _, .inl ⟨a, rfl, rfl⟩, (withMemory_next _ _ h).2⟩))))
  | cpx a =>
    exact .inr (.inr (.inr (.inr (.inl ⟨_, _, .inr (.inl ⟨a, rfl, rfl⟩), (withMemory_next _ _ h).2⟩))))
  | cpy a =>
    exact .inr (.inr (.inr (.inr (.inl ⟨_, _, .inr (.inr ⟨a, rfl, rfl⟩), (withMemory_next _ _ h).2⟩))))
  | bcc d | bcs d | beq d | bne d | bmi d | bpl d | bvc d | bvs d =>
    have h' := (branchWhen_eq _ _ _).symm.trans h
    cases h'
    exact .inr (.inr (.inr (.inr (.inr (.inl ⟨d, _, by simp, rfl⟩)))))
  | clc | cli | cld | clv =>
    cases h
    exact .inr (.inr (.inr (.inr (.inr (.inr ⟨_, by simp, rfl⟩)))))
  | adcAcc | andAcc | aslImm n | aslAbs a | aslZp a | bitImm n | bitAcc => cases h
  | clrfZero | clrfBreak | clrfNegative => cases h

end Sys2Proof.Machine
end

