-- ==== Sys2Proof/Laws/PerInstr.lean ====
section
/-! SUPPORT. Per-instruction laws. The family `EncodedRow` says of an instruction, as syntax, that its command word has
`rsv` 0 and matches its own row of spec/opcode_table.json. -/

namespace Sys2Proof.Laws.EncodedRow

/-- The instruction's word has `rsv` 0 and matches its row. -/
def Statement (i : Instr) : Prop := cwRsv (encode i) = 0 ∧ rowMatches (encode i) (opcodeRow i) = true

/-- The upper byte of a command word does not depend on the operand. -/
theorem and_high16 (op : BitVec 4) (mode : BitVec 2) (opr : BitVec 16) :
    commandWord op mode opr &&& 0xFF0000#24 = commandWord op mode 0#16 := by
  apply BitVec.eq_of_getLsbD_eq
  intro i hi
  rw [BitVec.getLsbD_and, getLsbD_commandWord, getLsbD_commandWord]
  interval_cases i <;> simp

/-- The upper two bytes of a command word with a byte operand do not depend on the byte. -/
theorem and_high8 (op : BitVec 4) (mode : BitVec 2) (n : Byte) :
    commandWord op mode (n.setWidth 16) &&& 0xFFFF00#24 = commandWord op mode 0#16 := by
  apply BitVec.eq_of_getLsbD_eq
  intro i hi
  rw [BitVec.getLsbD_and, getLsbD_commandWord, getLsbD_commandWord]
  interval_cases i <;> simp

theorem matches_high16 (op : BitVec 4) (mode : BitVec 2) (opr : BitVec 16) {m : CommandWord}
    (h : commandWord op mode 0#16 = m) : rowMatches (commandWord op mode opr) (m, 0xFF0000#24) = true := by
  simp [rowMatches, and_high16, h]

theorem matches_high8 (op : BitVec 4) (mode : BitVec 2) (n : Byte) {m : CommandWord}
    (h : commandWord op mode 0#16 = m) :
    rowMatches (commandWord op mode (n.setWidth 16)) (m, 0xFFFF00#24) = true := by
  simp [rowMatches, and_high8, h]

theorem adcImm (n : Byte) : Statement (.adcImm n) :=
  ⟨cwRsv_commandWord _ _ _, matches_high8 _ _ _ (by decide)⟩
theorem adcAbs (a : Addr) : Statement (.adcAbs a) :=
  ⟨cwRsv_commandWord _ _ _, matches_high16 _ _ _ (by decide)⟩
theorem adcZp (a : Addr) : Statement (.adcZp a) :=
  ⟨cwRsv_commandWord _ _ _, matches_high16 _ _ _ (by decide)⟩
theorem adcAcc : Statement .adcAcc := by unfold Statement; decide
theorem andImm (n : Byte) : Statement (.andImm n) :=
  ⟨cwRsv_commandWord _ _ _, matches_high8 _ _ _ (by decide)⟩
theorem andAbs (a : Addr) : Statement (.andAbs a) :=
  ⟨cwRsv_commandWord _ _ _, matches_high16 _ _ _ (by decide)⟩
theorem andZp (a : Addr) : Statement (.andZp a) :=
  ⟨cwRsv_commandWord _ _ _, matches_high16 _ _ _ (by decide)⟩
theorem andAcc : Statement .andAcc := by unfold Statement; decide
theorem aslImm (n : Byte) : Statement (.aslImm n) :=
  ⟨cwRsv_commandWord _ _ _, matches_high8 _ _ _ (by decide)⟩
theorem aslAbs (a : Addr) : Statement (.aslAbs a) :=
  ⟨cwRsv_commandWord _ _ _, matches_high16 _ _ _ (by decide)⟩
theorem aslZp (a : Addr) : Statement (.aslZp a) :=
  ⟨cwRsv_commandWord _ _ _, matches_high16 _ _ _ (by decide)⟩
theorem aslAcc : Statement .aslAcc := by unfold Statement; decide
theorem bitImm (n : Byte) : Statement (.bitImm n) :=
  ⟨cwRsv_commandWord _ _ _, matches_high8 _ _ _ (by decide)⟩
theorem bitAbs (a : Addr) : Statement (.bitAbs a) :=
  ⟨cwRsv_commandWord _ _ _, matches_high16 _ _ _ (by decide)⟩
theorem bitZp (a : Addr) : Statement (.bitZp a) :=
  ⟨cwRsv_commandWord _ _ _, matches_high16 _ _ _ (by decide)⟩
theorem bitAcc : Statement .bitAcc := by unfold Statement; decide
theorem bcc (d : Int) : Statement (.bcc d) :=
  ⟨cwRsv_commandWord _ _ _, matches_high16 _ _ _ (by decide)⟩
theorem bcs (d : Int) : Statement (.bcs d) :=
  ⟨cwRsv_commandWord _ _ _, matches_high16 _ _ _ (by decide)⟩
theorem beq (d : Int) : Statement (.beq d) :=
  ⟨cwRsv_commandWord _ _ _, matches_high16 _ _ _ (by decide)⟩
theorem bne (d : Int) : Statement (.bne d) :=
  ⟨cwRsv_commandWord _ _ _, matches_high16 _ _ _ (by decide)⟩
theorem bmi (d : Int) : Statement (.bmi d) :=
  ⟨cwRsv_commandWord _ _ _, matches_high16 _ _ _ (by decide)⟩
theorem bpl (d : Int) : Statement (.bpl d) :=
  ⟨cwRsv_commandWord _ _ _, matches_high16 _ _ _ (by decide)⟩
theorem bvc (d : Int) : Statement (.bvc d) :=
  ⟨cwRsv_commandWord _ _ _, matches_high16 _ _ _ (by decide)⟩
theorem bvs (d : Int) : Statement (.bvs d) :=
  ⟨cwRsv_commandWord _ _ _, matches_high16 _ _ _ (by decide)⟩
theorem cmp (a : Addr) : Statement (.cmp a) :=
  ⟨cwRsv_commandWord _ _ _, matches_high16 _ _ _ (by decide)⟩
theorem cpx (a : Addr) : Statement (.cpx a) :=
  ⟨cwRsv_commandWord _ _ _, matches_high16 _ _ _ (by decide)⟩
theorem cpy (a : Addr) : Statement (.cpy a) :=
  ⟨cwRsv_commandWord _ _ _, matches_high16 _ _ _ (by decide)⟩
theorem clc : Statement .clc := by unfold Statement; decide
theorem clrfZero : Statement .clrfZero := by unfold Statement; decide
theorem cli : Statement .cli := by unfold Statement; decide
theorem cld : Statement .cld := by unfold Statement; decide
theorem clrfBreak : Statement .clrfBreak := by unfold Statement; decide
theorem clv : Statement .clv := by unfold Statement; decide
theorem clrfNegative : Statement .clrfNegative := by unfold Statement; decide

end Sys2Proof.Laws.EncodedRow
end

