-- ==== Sys2Proof/Laws/Step.lean ====
section
/-! SUPPORT. What one step can do, said once: idle, a host write, a reserved word, a command that ends. -/

namespace Sys2Proof.Machine

theorem conclude_next (s t : State) : conclude s (.next t) = .next (t.reply .ok) := rfl
theorem conclude_refused (s : State) (r : Refusal) : conclude s (.refused r) = .refused r := rfl

theorem conclude_fault_stop {s : State} (h : s.host.onError = .stop) (e : Fault) : conclude s (.fault e) = .fault e := by
  simp [conclude, h]

theorem conclude_fault_goOn {s : State} (h : s.host.onError = .goOn) (e : Fault) :
    conclude s (.fault e) = .next (s.reply e.status) := by
  simp [conclude, h]

/-- The step with no move left: the state is held. -/
theorem step_idle {s : State} (h : s.host.moves = []) : step s = .next s := by
  simp [step, nextMove, h]

/-- The step with a host write next. -/
theorem step_write {s : State} {w : HostWrite} {rest : List HostMove} (h : s.host.moves = .write w :: rest) :
    step s = hostWrite w (s.setMoves rest) := by
  simp [step, nextMove, h, runMove]

/-- The step with a reserved word next (60_exceptions.md R127). -/
theorem step_reserved {s : State} {cw : CommandWord} {rest : List HostMove} {why : Reserved}
    (h : s.host.moves = .issue cw :: rest) (hd : decode cw = .error why) : step s = .refused (.reservedWord why) := by
  simp [step, nextMove, h, runMove, issue, hd]

/-- The step with a command next: `exec` of it, concluded. -/
theorem step_command {s : State} {cw : CommandWord} {rest : List HostMove} {i : Instr}
    (h : s.host.moves = .issue cw :: rest) (hd : decode cw = .ok i) :
    step s = conclude (s.setMoves rest) (exec i (s.setMoves rest)) := by
  simp [step, nextMove, h, runMove, issue, hd]

/-- What a host write that is made leaves: the host's side kept, and the memory kept or one existing cell written. -/
theorem hostWrite_next {w : HostWrite} {s t : State} (h : hostWrite w s = .next t) :
    t.host = s.host ∧ (t.mem = s.mem ∨ ∃ a v, a < s.mem.len.val ∧ t.mem = s.mem.setByte a v) := by
  cases w with
  | cell a v =>
    simp only [hostWrite] at h
    split at h
    · next hh => cases h; exact ⟨rfl, .inr ⟨_, _, Memory.has_iff.mp hh, rfl⟩⟩
    · cases h
  | accumulator v => cases h; exact ⟨rfl, .inl rfl⟩
  | indexX v => cases h; exact ⟨rfl, .inl rfl⟩
  | indexY v => cases h; exact ⟨rfl, .inl rfl⟩
  | programCounter v => cases h; exact ⟨rfl, .inl rfl⟩
  | stackPointer v => cases h; exact ⟨rfl, .inl rfl⟩
  | flag f v => cases h; exact ⟨rfl, .inl rfl⟩

/-- Everything a step that answers a next state can be: idle, a host write, a command completed, a command that raised an
error under a host that goes on. -/
theorem step_next_cases {s t : State} (h : step s = .next t) :
    (s.host.moves = [] ∧ t = s) ∨
    (∃ w rest, s.host.moves = .write w :: rest ∧ hostWrite w (s.setMoves rest) = .next t) ∨
    (∃ cw rest i u, s.host.moves = .issue cw :: rest ∧ decode cw = .ok i ∧ exec i (s.setMoves rest) = .next u ∧
      t = u.reply .ok) ∨
    (∃ cw rest i e, s.host.moves = .issue cw :: rest ∧ decode cw = .ok i ∧ exec i (s.setMoves rest) = .fault e ∧
      s.host.onError = .goOn ∧ t = (s.setMoves rest).reply e.status) := by
  rcases hm : s.host.moves with _ | ⟨m, rest⟩
  · rw [step_idle hm] at h; cases h; exact .inl ⟨rfl, rfl⟩
  · cases m with
    | write w => rw [step_write hm] at h; exact .inr (.inl ⟨w, rest, rfl, h⟩)
    | issue cw =>
      cases hd : decode cw with
      | error why => rw [step_reserved hm hd] at h; cases h
      | ok i =>
        rw [step_command hm hd] at h
        cases he : exec i (s.setMoves rest) with
        | next u => rw [he] at h; cases h; exact .inr (.inr (.inl ⟨cw, rest, i, u, rfl, hd, he, rfl⟩))
        | refused r => rw [he] at h; cases h
        | fault e =>
          rw [he] at h
          cases ho : s.host.onError with
          | stop => rw [conclude_fault_stop (show (s.setMoves rest).host.onError = .stop from ho)] at h; cases h
          | goOn =>
            rw [conclude_fault_goOn (show (s.setMoves rest).host.onError = .goOn from ho)] at h
            cases h
            exact .inr (.inr (.inr ⟨cw, rest, i, e, rfl, hd, he, rfl, rfl⟩))

/-- The next step after `withFetchWord` issues exactly that word. -/
theorem step_withFetchWord (s : State) (nbits w : Nat) :
    step (s.withFetchWord nbits w) = issue (tableWord nbits w) s := rfl

end Sys2Proof.Machine
end

