-- ==== Sys2Proof/Tests/Slice0.lean ====
section
/-! SUPPORT. The model's own tests: what WellFormed refuses, words written out from 30_encoding.md, one step per
instruction with the numbers of spec/95_test_vectors.md, and a witness for the hypotheses of each statement. -/

namespace Sys2Proof.Tests

open Sys2Proof.Machine Sys2Proof.Claims

/-! ### Helpers -/

/-- The next state, if there is one. -/
def after : Host.Outcome State Fault Refusal → Option State
  | .next t => some t
  | .fault _ => none
  | .refused _ => none

/-- Seven flags as the test vectors write them, `C Z I D B V N`. -/
def fl (v : BitVec 7) : Flags :=
  ⟨v.getLsbD 6, v.getLsbD 5, v.getLsbD 4, v.getLsbD 3, v.getLsbD 2, v.getLsbD 1, v.getLsbD 0⟩

/-- The memory of 95_test_vectors.md 2.1: `MEM_LEN = 0x0300`, two bytes that are not 0. -/
def vectorMemory : Memory := ⟨0x0300, [(0x0010, 0x3C#8), (0x02FF, 0x80#8)]⟩

/-- A state with an accumulator and flags, the memory of 2.1. -/
def start (a : Byte) (flags : BitVec 7) : State :=
  { State.reset with a := a, flags := fl flags, mem := vectorMemory }

/-- A state with A, X, Y, flags, `MEM_LEN = 0x0100` and the byte `m` at 0x0010 (2.6, 2.7). -/
def withByte (a x y m : Byte) (flags : BitVec 7) : State :=
  { State.reset with a := a, x := x, y := y, flags := fl flags, mem := ⟨0x0100, [(0x0010, m)]⟩ }

/-- A state with a PC and flags (2.5). -/
def at' (pc : BitVec 16) (flags : BitVec 7) : State := { State.reset with pc := pc, flags := fl flags }

/-- A state whose host has moves to make. -/
def hosting (ms : List HostMove) (p : ErrorPolicy) (s : State) : State := s.setHost ⟨ms, p, []⟩

/-- A and the flags after a command. -/
def aluAfter (i : Instr) (s : State) : Option (Byte × Flags) := (after (exec i s)).map fun t => (t.a, t.flags)

/-- The flags after a command. -/
def flagsAfter (i : Instr) (s : State) : Option Flags := (after (exec i s)).map (·.flags)

/-- PC after a command. -/
def pcAfter (i : Instr) (s : State) : Option (BitVec 16) := (after (exec i s)).map (·.pc)

/-! ### WellFormed: its one check, in each of the eight rows that have it -/

theorem test_wellFormed_refuses_above :
    [Instr.bcc 32768, .bcs 32768, .beq 32768, .bne 32768, .bmi 32768, .bpl 32768, .bvc 32768, .bvs 32768].all
      (fun i => !i.wellFormed) = true := by decide

theorem test_wellFormed_refuses_below :
    [Instr.bcc (-32769), .bcs (-32769), .beq (-32769), .bne (-32769), .bmi (-32769), .bpl (-32769), .bvc (-32769),
      .bvs (-32769)].all (fun i => !i.wellFormed) = true := by decide

theorem test_wellFormed_accepts_the_ends :
    [Instr.bcc 32767, .bcs (-32768), .beq 32767, .bne (-32768), .bmi 0, .bpl 32767, .bvc (-32768), .bvs 0].all
      Instr.wellFormed = true := by decide

/-! ### Decode: a word of every row, field by field `op mode rsv opr` from R54 to R61 -/

theorem test_decode_adc :
    decode (0b0000#4 ++ 0b00#2 ++ 0b00#2 ++ 0x0044#16) = .ok (.adcImm 0x44#8) ∧
    decode (0b0000#4 ++ 0b01#2 ++ 0b00#2 ++ 0x1234#16) = .ok (.adcAbs 0x1234#16) ∧
    decode (0b0000#4 ++ 0b10#2 ++ 0b00#2 ++ 0x1234#16) = .ok (.adcZp 0x1234#16) ∧
    decode (0b0000#4 ++ 0b11#2 ++ 0b00#2 ++ 0xBEEF#16) = .ok .adcAcc := by decide

theorem test_decode_and :
    decode (0b0001#4 ++ 0b00#2 ++ 0b00#2 ++ 0x00F0#16) = .ok (.andImm 0xF0#8) ∧
    decode (0b0001#4 ++ 0b01#2 ++ 0b00#2 ++ 0xFF01#16) = .ok (.andAbs 0xFF01#16) ∧
    decode (0b0001#4 ++ 0b10#2 ++ 0b00#2 ++ 0x02FF#16) = .ok (.andZp 0x02FF#16) ∧
    decode (0b0001#4 ++ 0b11#2 ++ 0b00#2 ++ 0x0000#16) = .ok .andAcc := by decide

theorem test_decode_asl :
    decode (0b0010#4 ++ 0b00#2 ++ 0b00#2 ++ 0x0001#16) = .ok (.aslImm 0x01#8) ∧
    decode (0b0010#4 ++ 0b01#2 ++ 0b00#2 ++ 0x0010#16) = .ok (.aslAbs 0x0010#16) ∧
    decode (0b0010#4 ++ 0b10#2 ++ 0b00#2 ++ 0x0010#16) = .ok (.aslZp 0x0010#16) ∧
    decode (0b0010#4 ++ 0b11#2 ++ 0b00#2 ++ 0xFFFF#16) = .ok .aslAcc := by decide

theorem test_decode_bit :
    decode (0b1011#4 ++ 0b00#2 ++ 0b00#2 ++ 0x0001#16) = .ok (.bitImm 0x01#8) ∧
    decode (0b1011#4 ++ 0b01#2 ++ 0b00#2 ++ 0x0010#16) = .ok (.bitAbs 0x0010#16) ∧
    decode (0b1011#4 ++ 0b10#2 ++ 0b00#2 ++ 0x0020#16) = .ok (.bitZp 0x0020#16) ∧
    decode (0b1011#4 ++ 0b11#2 ++ 0b00#2 ++ 0x0000#16) = .ok .bitAcc := by decide

theorem test_decode_branches :
    decode (0b0011#4 ++ 0b00#2 ++ 0b00#2 ++ 0x0005#16) = .ok (.bcc 5) ∧
    decode (0b0100#4 ++ 0b00#2 ++ 0b00#2 ++ 0xFFFD#16) = .ok (.bcs (-3)) ∧
    decode (0b0101#4 ++ 0b00#2 ++ 0b00#2 ++ 0x7FFF#16) = .ok (.beq 32767) ∧
    decode (0b0110#4 ++ 0b00#2 ++ 0b00#2 ++ 0x8000#16) = .ok (.bne (-32768)) ∧
    decode (0b0111#4 ++ 0b00#2 ++ 0b00#2 ++ 0x007F#16) = .ok (.bmi 127) ∧
    decode (0b1000#4 ++ 0b00#2 ++ 0b00#2 ++ 0xFF80#16) = .ok (.bpl (-128)) ∧
    decode (0b1001#4 ++ 0b00#2 ++ 0b00#2 ++ 0x0000#16) = .ok (.bvc 0) ∧
    decode (0b1010#4 ++ 0b00#2 ++ 0b00#2 ++ 0xFFFF#16) = .ok (.bvs (-1)) := by decide

theorem test_decode_compares :
    decode (0b1100#4 ++ 0b00#2 ++ 0b00#2 ++ 0x0010#16) = .ok (.cmp 0x0010#16) ∧
    decode (0b1101#4 ++ 0b00#2 ++ 0b00#2 ++ 0x0020#16) = .ok (.cpx 0x0020#16) ∧
    decode (0b1110#4 ++ 0b00#2 ++ 0b00#2 ++ 0xFFFF#16) = .ok (.cpy 0xFFFF#16) := by decide

theorem test_decode_clears :
    decode (0b1111#4 ++ 0b00#2 ++ 0b00#2 ++ 0#13 ++ 0b000#3) = .ok .clc ∧
    decode (0b1111#4 ++ 0b00#2 ++ 0b00#2 ++ 0#13 ++ 0b001#3) = .ok .clrfZero ∧
    decode (0b1111#4 ++ 0b00#2 ++ 0b00#2 ++ 0#13 ++ 0b010#3) = .ok .cli ∧
    decode (0b1111#4 ++ 0b00#2 ++ 0b00#2 ++ 0#13 ++ 0b011#3) = .ok .cld ∧
    decode (0b1111#4 ++ 0b00#2 ++ 0b00#2 ++ 0#13 ++ 0b100#3) = .ok .clrfBreak ∧
    decode (0b1111#4 ++ 0b00#2 ++ 0b00#2 ++ 0#13 ++ 0b101#3) = .ok .clv ∧
    decode (0b1111#4 ++ 0b00#2 ++ 0b00#2 ++ 0#13 ++ 0b110#3) = .ok .clrfNegative := by decide

/-- A word of each class of R62 in each format it can stand in (95_test_vectors.md section 4). -/
theorem test_decode_refuses :
    decode 0x010000#24 = .error .reservedBits ∧ decode 0xF30000#24 = .error .reservedBits ∧
    decode 0x340005#24 = .error .modeNotZero ∧ decode 0xC40010#24 = .error .modeNotZero ∧
    decode 0xF40000#24 = .error .modeNotZero ∧ decode 0x000100#24 = .error .literalAboveByte ∧
    decode 0xB00100#24 = .error .literalAboveByte ∧ decode 0xF00008#24 = .error .selectorHighBits ∧
    decode 0xF00007#24 = .error .selectorSeven := by decide

theorem test_encode_words_of_the_spec :
    encode (.adcAbs 0x1234#16) = 0x041234#24 ∧ encode (.bne (-3)) = 0x60FFFD#24 ∧ encode .aslAcc = 0x2C0000#24 ∧
    encode (.cpx 0x0020#16) = 0xD00020#24 ∧ encode .clv = 0xF00005#24 := by decide

/-- The forms of 30_encoding.md R65. -/
theorem test_assembly :
    (Instr.adcImm 68#8).assembly = "ADC #68" ∧ (Instr.andZp 255#16).assembly = "AND zp 255" ∧
    Instr.aslAcc.assembly = "ASL A" ∧ (Instr.bcc 5).assembly = "BCC +5" ∧ (Instr.bne (-3)).assembly = "BNE -3" ∧
    (Instr.cmp 16#16).assembly = "CMP 16" ∧ Instr.clrfBreak.assembly = "CLRF break" := by decide

theorem test_tableWord_reads_the_low_bits :
    decodeTableWord 24 0x2C0000 = some .aslAcc ∧ decodeTableWord 24 0x1000000 = some (.adcImm 0x00#8) ∧
    decodeTableWord 24 0xF00007 = none := by decide

/-! ### ADC (95_test_vectors.md 2.1, 2.2, S2) -/

theorem test_adcImm_no_carry_in_and_corrected_overflow :
    aluAfter (.adcImm 0xF0#8) (start 0xF0#8 0b1011100#7) = some (0xE0#8, fl 0b1011101#7) := by decide

theorem test_adcImm_negative_overflow_to_zero :
    aluAfter (.adcImm 0x80#8) (start 0x80#8 0b0011100#7) = some (0x00#8, fl 0b1111110#7) := by decide

theorem test_adcAbs_reads_the_last_cell :
    aluAfter (.adcAbs 0x02FF#16) (start 0x0F#8 0b1000010#7) = some (0x8F#8, fl 0b0000001#7) := by decide

theorem test_adcAbs_faults_at_the_length :
    exec (.adcAbs 0x0300#16) (start 0x0F#8 0b1000010#7) = .fault (.outOfRange 0x0300#16) := by rfl

theorem test_adcZp_reads_above_255 :
    aluAfter (.adcZp 0x02FF#16) (start 0x80#8 0#7) = some (0x00#8, fl 0b1100010#7) := by decide

theorem test_adcAcc_unsupported :
    exec .adcAcc (start 0x46#8 0b0001000#7) = .fault (.unsupportedMode .accumulator) := by rfl

/-! ### AND (95_test_vectors.md 2.1, S4) -/

theorem test_andImm_keeps_carry_and_overflow :
    aluAfter (.andImm 0xF0#8) (start 0xDD#8 0b1100010#7) = some (0xD0#8, fl 0b1000011#7) := by decide

theorem test_andAbs :
    aluAfter (.andAbs 0x0010#16) (start 0x0F#8 0b1000010#7) = some (0x0C#8, fl 0b1000010#7) := by decide

theorem test_andZp_zero_result :
    aluAfter (.andZp 0x02FF#16) (start 0x0F#8 0b1000010#7) = some (0x00#8, fl 0b1100010#7) := by decide

theorem test_andZp_faults :
    exec (.andZp 0xFFFF#16) (start 0x0F#8 0b1000010#7) = .fault (.outOfRange 0xFFFF#16) := by rfl

theorem test_andAcc_unsupported :
    exec .andAcc (start 0x0F#8 0b1000010#7) = .fault (.unsupportedMode .accumulator) := by rfl

/-! ### ASL (95_test_vectors.md 2.1, 2.4, S5) -/

theorem test_aslAcc_keeps_overflow :
    aluAfter .aslAcc (start 0xFF#8 0b0000010#7) = some (0xFE#8, fl 0b1000011#7) := by decide

theorem test_aslAcc_zero_with_carry : aluAfter .aslAcc (start 0x80#8 0#7) = some (0x00#8, fl 0b1100000#7) := by decide

theorem test_aslAbs_mode_before_memory :
    exec (.aslAbs 0x0300#16) (start 0x0F#8 0#7) = .fault (.unsupportedMode .absolute) := by rfl

theorem test_aslImm_aslZp_unsupported :
    exec (.aslImm 0x01#8) (start 0x0F#8 0#7) = .fault (.unsupportedMode .immediate) ∧
    exec (.aslZp 0x0010#16) (start 0x0F#8 0#7) = .fault (.unsupportedMode .zeroPage) := ⟨rfl, rfl⟩

/-! ### Branches (42_branch.md section 4, 95_test_vectors.md 2.5), by the one flag each looks at -/

theorem test_bcc_bcs_look_at_carry :
    pcAfter (.bcc 5) (at' 0x1000#16 0b0111111#7) = some 0x1005#16 ∧
    pcAfter (.bcs 5) (at' 0x1000#16 0b0111111#7) = some 0x1000#16 ∧
    pcAfter (.bcs (-3)) (at' 0x1000#16 0b1000000#7) = some 0x0FFD#16 := by decide

theorem test_beq_bne_look_at_zero :
    pcAfter (.beq 5) (at' 0xFFFE#16 0b0100000#7) = some 0x0003#16 ∧
    pcAfter (.bne 5) (at' 0x1000#16 0b0100000#7) = some 0x1000#16 ∧
    pcAfter (.bne (-5)) (at' 0x0002#16 0b1011111#7) = some 0xFFFD#16 := by decide

theorem test_bmi_bpl_look_at_negative :
    pcAfter (.bmi 32767) (at' 0x8000#16 0b0000001#7) = some 0xFFFF#16 ∧
    pcAfter (.bpl 5) (at' 0x1000#16 0b0000001#7) = some 0x1000#16 ∧
    pcAfter (.bpl (-128)) (at' 0x8000#16 0b1111110#7) = some 0x7F80#16 := by decide

theorem test_bvc_bvs_look_at_overflow :
    pcAfter (.bvc (-32768)) (at' 0x8000#16 0b1111101#7) = some 0x0000#16 ∧
    pcAfter (.bvs 5) (at' 0x1000#16 0b1111101#7) = some 0x1000#16 ∧
    pcAfter (.bvs (-1)) (at' 0x0000#16 0b0000010#7) = some 0xFFFF#16 := by decide

theorem test_branch_changes_no_flag : flagsAfter (.bcc 5) (at' 0x1000#16 0b0110110#7) = some (fl 0b0110110#7) := by
  decide

/-! ### BIT (95_test_vectors.md 2.6) -/

theorem test_bitAbs : aluAfter (.bitAbs 0x0010#16) (withByte 0x0F#8 0#8 0#8 0xF0#8 0b1000000#7) =
    some (0x0F#8, fl 0b1100011#7) := by decide

theorem test_bitZp : aluAfter (.bitZp 0x0010#16) (withByte 0x40#8 0#8 0#8 0xBF#8 0b0011100#7) =
    some (0x40#8, fl 0b0111101#7) := by decide

theorem test_bit_errors :
    exec (.bitImm 0x01#8) (withByte 0#8 0#8 0#8 1#8 0#7) = .fault (.unsupportedMode .immediate) ∧
    exec .bitAcc (withByte 0#8 0#8 0#8 1#8 0#7) = .fault (.unsupportedMode .accumulator) ∧
    exec (.bitAbs 0x0100#16) (withByte 0#8 0#8 0#8 1#8 0#7) = .fault (.outOfRange 0x0100#16) := ⟨rfl, rfl, rfl⟩

/-! ### Compare (95_test_vectors.md 2.7): each reads its own register -/

theorem test_cmp_strict_carry :
    flagsAfter (.cmp 0x0010#16) (withByte 0x05#8 0x09#8 0x09#8 0x05#8 0b1011110#7) = some (fl 0b0111110#7) := by decide

/-- 0x80 against 0x00: negative is false although bit 7 of the wrapped difference is 1. -/
theorem test_cmp_negative_is_exact :
    flagsAfter (.cmp 0x0011#16) (withByte 0x80#8 0#8 0#8 0x3C#8 0#7) = some (fl 0b1000000#7) := by decide

theorem test_cpx_reads_x :
    flagsAfter (.cpx 0x0010#16) (withByte 0x00#8 0xFF#8 0x00#8 0x01#8 0#7) = some (fl 0b1000000#7) := by decide

theorem test_cpy_reads_y :
    flagsAfter (.cpy 0x0010#16) (withByte 0xFF#8 0xFF#8 0x00#8 0xFF#8 0b1100010#7) = some (fl 0b0000011#7) := by decide

/-! ### Clear flags (44_clear_flag.md section 4) -/

theorem test_clears_from_all_ones :
    flagsAfter .clc (at' 0#16 0b1111111#7) = some (fl 0b0111111#7) ∧
    flagsAfter .cli (at' 0#16 0b1111111#7) = some (fl 0b1101111#7) ∧
    flagsAfter .cld (at' 0#16 0b1111111#7) = some (fl 0b1110111#7) ∧
    flagsAfter .clv (at' 0#16 0b1111111#7) = some (fl 0b1111101#7) := by decide

theorem test_clrf_always_raises :
    exec .clrfZero (at' 0#16 0#7) = .fault (.unsupportedClearFlag .zero) ∧
    exec .clrfBreak (at' 0#16 0b1111111#7) = .fault (.unsupportedClearFlag .brk) ∧
    exec .clrfNegative (at' 0#16 0#7) = .fault (.unsupportedClearFlag .negative) := ⟨rfl, rfl, rfl⟩

/-! ### The port -/

/-- The word placed by `withFetchWord` is the first to run after reset. -/
theorem test_withFetchWord_runs_first :
    (after (step (State.reset.withFetchWord 24 0x000050))).map (fun t => (t.a, t.host)) =
      some (0x50#8, ⟨[], .stop, [.ok]⟩) := by decide

/-- Program P4a of 95_test_vectors.md: the second command raises OutOfRange and the run stops. -/
theorem test_error_stops_the_run :
    step (hosting [.issue 0x040100#24, .issue 0xF00000#24] .stop (withByte 0x46#8 0#8 0#8 0#8 0b0001000#7)) =
      .fault (.outOfRange 0x0100#16) := by rfl

/-- P4a under a host that goes on: the state is kept, status 3 handed over, CLC is still to come. -/
theorem test_error_and_the_host_goes_on :
    (after (step (hosting [.issue 0x040100#24, .issue 0xF00000#24] .goOn (withByte 0x46#8 0#8 0#8 1#8 0b0001000#7)))).map
      (fun t => (t.a, t.flags, t.host)) =
      some (0x46#8, fl 0b0001000#7, ⟨[.issue 0xF00000#24], .goOn, [.outOfRange 0x0100#16]⟩) := by decide

/-- P4d: an immediate of 0x1FF is refused by the decoder. -/
theorem test_reserved_word_is_refused :
    step (hosting [.issue 0x0001FF#24] .goOn State.reset) = .refused (.reservedWord .literalAboveByte) := by rfl

theorem test_status_codes :
    (Fault.outOfRange 0x0100#16).status.code = 3#2 ∧ (Fault.unsupportedMode .accumulator).status.payload = some 3 ∧
    (Fault.unsupportedClearFlag .negative).status.payload = some 6 ∧ Status.ok.code = 0#2 := by decide

/-- A host write below the length keeps the canonical form: a byte added in order, and 0x00 taken off the list. -/
theorem test_host_write_of_cells :
    (vectorMemory.setByte 0x0011 0x07#8).cells = [(0x0010, 0x3C#8), (0x0011, 0x07#8), (0x02FF, 0x80#8)] ∧
    (vectorMemory.setByte 0x0010 0x00#8).cells = [(0x02FF, 0x80#8)] := by decide

/-! ### Witnesses: for the hypotheses of each statement a concrete state and operands, one per clause -/

/-- EveryStepKeepsCanonicalMemory, NoStepChangesMemoryLength, StepsTakeTheMovesInOrder: a step that writes a cell. -/
theorem test_witness_step_from_canonical_memory :
    ∃ s t, State.Inv s ∧ step s = .next t ∧ t.mem ≠ s.mem ∧ s.host.moves.length = 2 :=
  ⟨hosting [.write (.cell 0x02FE#16 0x55#8), .issue 0xF00000#24] .stop (start 0x0F#8 0#7), _, by rfl, rfl,
    by decide, rfl⟩

/-- EveryStepKeepsCanonicalMemory, NoStepChangesMemoryLength, StepsTakeTheMovesInOrder: a step that runs a command. -/
theorem test_witness_step_of_a_command :
    ∃ s t, State.Inv s ∧ step s = .next t ∧ s.host.moves.length = 1 ∧ t.a ≠ s.a :=
  ⟨hosting [.issue 0x0402FF#24] .goOn (start 0x0F#8 0#7), _, by rfl, rfl, rfl, by decide⟩

/-- SameReadsMeanSameMemory: two memories built by different writes. -/
theorem test_witness_memories_that_read_the_same :
    let m := (Memory.setByte ⟨2, []⟩ 0 0x01#8).setByte 1 0x02#8
    let m' := (Memory.setByte ⟨2, []⟩ 1 0x02#8).setByte 0 0x01#8
    m.wf = true ∧ m'.wf = true ∧ m.len = m'.len ∧ ∀ a : Addr, a.toNat < m.len.val → m.byteAt a.toNat = m'.byteAt a.toNat := by
  refine ⟨by decide, by decide, rfl, fun a _ => ?_⟩
  rfl

/-- DecodeOfEncodeIsTheCommand: both ends of the one range that WellFormed checks, and a row without it. -/
theorem test_witness_wellFormed :
    Instr.wellFormed (.bcc 32767) = true ∧ Instr.wellFormed (.bvs (-32768)) = true ∧
    Instr.wellFormed (.adcImm 0xFF#8) = true := by decide

/-- EncodeOfDecodeIsTheWord, DecodedWordMatchesItsRow: both arms. -/
theorem test_witness_accepted_words :
    decode 0x2CFFFF#24 = .ok .aslAcc ∧ 0x2CFFFF#24 &&& 0xFF0000#24 = encode .aslAcc ∧
    decode 0x308000#24 = .ok (.bcc (-32768)) ∧ encode (.bcc (-32768)) = 0x308000#24 := by decide

/-- ReservedWordsAreTheFiveClasses: the words just outside each class, and its third clause. -/
theorem test_witness_reserved_boundaries :
    decode 0x0000FF#24 = .ok (.adcImm 0xFF#8) ∧ decode 0x000100#24 = .error .literalAboveByte ∧
    decode 0xF00006#24 = .ok .clrfNegative ∧ decode 0xF00007#24 = .error .selectorSeven ∧
    decode 0xF00008#24 = .error .selectorHighBits ∧ decode 0xB4FFFF#24 = .ok (.bitAbs 0xFFFF#16) ∧
    decode 0x34FFFF#24 = .error .modeNotZero ∧ decode 0x01FFFF#24 = .error .reservedBits ∧
    (hosting [.issue 0x01FFFF#24] .stop State.reset).host.moves = .issue 0x01FFFF#24 :: [] := by decide

/-- StepRunsTheDecodedCommand: a command that completes. -/
theorem test_witness_step_runs_next :
    ∃ (s : State) (t : State), s.host.moves = .issue 0x308000#24 :: [.issue 0xF00000#24] ∧
      decode 0x308000#24 = .ok (.bcc (-32768)) ∧ Instr.wellFormed (.bcc (-32768)) = true ∧
      exec (.bcc (-32768)) (s.setMoves [.issue 0xF00000#24]) = .next t ∧ t.pc = 0x8000#16 :=
  ⟨hosting [.issue 0x308000#24, .issue 0xF00000#24] .stop State.reset, _, rfl, by decide, by decide, rfl, by decide⟩

/-- StepRunsTheDecodedCommand: a command that raises an error, under each policy. -/
theorem test_witness_step_runs_fault :
    ∀ p : ErrorPolicy, ∃ s : State, s.host.moves = .issue 0x040300#24 :: [] ∧ s.host.onError = p ∧
      decode 0x040300#24 = .ok (.adcAbs 0x0300#16) ∧ Instr.wellFormed (.adcAbs 0x0300#16) = true ∧
      exec (.adcAbs 0x0300#16) (s.setMoves []) = .fault (.outOfRange 0x0300#16) :=
  fun p => ⟨hosting [.issue 0x040300#24] p (start 0x0F#8 0#7), rfl, rfl, by decide, by decide, rfl⟩

/-- HostWritesSetOneField: a state for each clause, the refused cell at the length. -/
theorem test_witness_host_writes :
    (∀ w : HostWrite, (hosting [.write w] .stop (start 0x0F#8 0#7)).host.moves = .write w :: []) ∧
    (start 0x0F#8 0#7).mem.len.val ≤ (0x0300#16).toNat ∧ State.reset.host.moves = [] ∧
    Flag.zero ≠ Flag.carry := ⟨fun _ => rfl, by decide, rfl, by decide⟩

/-- ReadAfterHostWriteReturnsIt: the last cell, with a byte, and another cell. -/
theorem test_witness_read_after_host_write :
    ∃ s : State, s.Inv ∧ s.host.moves = .write (.cell 0x02FF#16 0x99#8) :: [] ∧ (0x02FF#16).toNat < s.mem.len.val ∧
      (0x0010#16 : Addr) ≠ 0x02FF#16 :=
  ⟨hosting [.write (.cell 0x02FF#16 0x99#8)] .stop (start 0#8 0#7), by rfl, rfl, by decide, by decide⟩

/-- ReadsMemory, in the statements of ADC, AND, BIT, CMP, CPX, CPY, and MemReadFaultsAtAndBeyondTheLength,
CompareNegativeIsNotTheWrappedBit: the last cell and the first that does not exist; MEM_LEN 0 and 65536. -/
theorem test_witness_memory_bounds :
    (0x02FF#16).toNat < (start 0#8 0#7).mem.len.val ∧ (start 0#8 0#7).mem.len.val ≤ (0x0300#16).toNat ∧
    (⟨0, []⟩ : Memory).len.val = 0 ∧ State.reset.mem.len.val = 65536 ∧
    (0xFFFF#16).toNat < State.reset.mem.len.val := by decide

/-- Rejects, in the statements that say where an instruction stops: a word that decodes to each row. -/
theorem test_witness_rejected_words :
    decode 0x0C0000#24 = .ok .adcAcc ∧ decode 0x1CFFFF#24 = .ok .andAcc ∧ decode 0x2000FF#24 = .ok (.aslImm 0xFF#8) ∧
    decode 0x24FFFF#24 = .ok (.aslAbs 0xFFFF#16) ∧ decode 0x280000#24 = .ok (.aslZp 0#16) ∧
    decode 0xB00000#24 = .ok (.bitImm 0#8) ∧ decode 0xBC0001#24 = .ok .bitAcc ∧ decode 0xF00001#24 = .ok .clrfZero ∧
    decode 0xF00004#24 = .ok .clrfBreak ∧ decode 0xF00006#24 = .ok .clrfNegative := by decide

/-- AdcAddsWithoutCarryIn, AndMasksTheAccumulator, AslDoublesTheAccumulator: their worked examples. -/
theorem test_witness_alu_examples :
    (start 0x7F#8 0#7).a = 0x7F#8 ∧ (start 0xDD#8 0#7).a = 0xDD#8 ∧ (start 0xFF#8 0#7).a = 0xFF#8 := by decide

/-- AdcIgnoresEveryIncomingFlag: two states that agree on A and on the last cell below both lengths, and differ in X, SP,
every flag, MEM_LEN, another byte and the host's side. -/
theorem test_witness_states_that_agree_on_a :
    let s := start 0xF0#8 0#7
    let s' := hosting [] .goOn { start 0xF0#8 0b1111111#7 with x := 1#8, sp := 4#16, mem := ⟨0x0400, [(0x02FF, 0x80#8)]⟩ }
    s.a = s'.a ∧ (0x02FF#16).toNat < s.mem.len.val ∧ (0x02FF#16).toNat < s'.mem.len.val ∧
      s.mem.byteAt (0x02FF#16).toNat = s'.mem.byteAt (0x02FF#16).toNat ∧ s.mem ≠ s'.mem ∧ s.flags ≠ s'.flags := by
  decide

/-- AslDoublesTheAccumulator, ModeIsCheckedBeforeMemory: both ends of the ignored operand field. -/
theorem test_witness_ignored_operand :
    0 < 65536 ∧ 65535 < 65536 ∧ decode (BitVec.ofNat 24 (0x2C0000 + 65535)) = .ok .aslAcc ∧
    decode (BitVec.ofNat 24 (0x0C0000 + 0)) = .ok .adcAcc := by decide

/-- AddZeroAfterAndKeepsItsConclusions: each of the three forms of AND completes. -/
theorem test_witness_and_forms :
    (∃ t, exec (.andImm 0xF0#8) (start 0xDD#8 0b1100010#7) = .next t ∧ t.flags.v = true) ∧
    (∃ t, exec (.andAbs 0x02FF#16) (start 0xDD#8 0b1100010#7) = .next t ∧ t.flags.n = true) ∧
    (∃ t, exec (.andZp 0x0000#16) (start 0xDD#8 0b1100010#7) = .next t ∧ t.flags.z = true) :=
  ⟨⟨_, rfl, by decide⟩, ⟨_, rfl, by decide⟩, ⟨_, rfl, by decide⟩⟩

/-- BranchesAddTheDisplacement: both values of every flag a branch tests, the ends of its operand field. -/
theorem test_witness_branch_predicates :
    (fl 0b1111111#7).c = true ∧ (fl 0b1111111#7).z = true ∧ (fl 0b1111111#7).n = true ∧ (fl 0b1111111#7).v = true ∧
    (fl 0#7).c = false ∧ (fl 0#7).z = false ∧ (fl 0#7).n = false ∧ (fl 0#7).v = false ∧
    decode (BitVec.ofNat 24 (3 * 2 ^ 20 + 32767)) = .ok (.bcc 32767) ∧
    decode (BitVec.ofNat 24 (10 * 2 ^ 20 + 32768)) = .ok (.bvs (-32768)) ∧
    decode (BitVec.ofNat 24 (10 * 2 ^ 20 + 65535)) = .ok (.bvs (-1)) := by decide

/-- BranchesAddTheDisplacement: the hypotheses of each of the ten worked branches. -/
theorem test_witness_branch_examples :
    (at' 0x1000#16 0#7).pc = 0x1000#16 ∧ (!(at' 0x1000#16 0#7).flags.c) = true ∧
    (at' 0x1000#16 0b1000000#7).flags.c = true ∧
    (at' 0xFFFE#16 0b0100000#7).pc = 0xFFFE#16 ∧ (at' 0xFFFE#16 0b0100000#7).flags.z = true ∧
    (at' 0x0002#16 0#7).pc = 0x0002#16 ∧ (!(at' 0x0002#16 0#7).flags.z) = true ∧
    (at' 0x8000#16 0b0000001#7).pc = 0x8000#16 ∧ (at' 0x8000#16 0b0000001#7).flags.n = true ∧
    (!(at' 0x8000#16 0#7).flags.n) = true ∧
    (at' 0x1234#16 0#7).pc = 0x1234#16 ∧ (!(at' 0x1234#16 0#7).flags.v) = true ∧
    (at' 0x0000#16 0b0000010#7).pc = 0x0000#16 ∧ (at' 0x0000#16 0b0000010#7).flags.v = true := by decide

/-- OnlyTakenBranchesMoveThePc: a command that moves PC. -/
theorem test_witness_pc_moves :
    ∃ t, exec (.bne (-5)) (at' 0x0002#16 0#7) = .next t ∧ t.pc ≠ (at' 0x0002#16 0#7).pc := ⟨_, rfl, by decide⟩

/-- BitTestsTheMemoryByte, ZeroAndNegativeTogetherOnlyFromBit, ComparesOrderTheRegisterAndTheByte: their examples. -/
theorem test_witness_bit_and_compare_examples :
    (withByte 0x01#8 0#8 0#8 0xC1#8 0#7).a = 0x01#8 ∧ 0x0010 < (withByte 0x01#8 0#8 0#8 0xC1#8 0#7).mem.len.val ∧
    (withByte 0x01#8 0#8 0#8 0xC1#8 0#7).mem.byteAt 0x0010 = 0xC1#8 ∧
    (withByte 0x0F#8 0#8 0#8 0xF0#8 0#7).a = 0x0F#8 ∧ (withByte 0x0F#8 0#8 0#8 0xF0#8 0#7).mem.byteAt 0x0010 = 0xF0#8 ∧
    (withByte 0x05#8 0#8 0#8 0x02#8 0#7).a = 0x05#8 ∧ (withByte 0x05#8 0#8 0#8 0x02#8 0#7).mem.byteAt 0x0010 = 0x02#8 := by
  decide

/-- CompareNegativeIsNotTheWrappedBit: equality, and a byte more than 128 away. -/
theorem test_witness_compare_corner_cases :
    (withByte 0x05#8 0#8 0#8 0x05#8 0#7).a = (withByte 0x05#8 0#8 0#8 0x05#8 0#7).mem.byteAt (0x0010#16).toNat ∧
    128 < ((0xFF#8).toNat - ((withByte 0xFF#8 0#8 0#8 0x01#8 0#7).mem.byteAt (0x0010#16).toNat).toNat : Int).natAbs := by
  decide

/-- ZeroAndNegativeTogetherOnlyFromBit: BIT leaves both true, CLC keeps both true. -/
theorem test_witness_zero_and_negative :
    (∃ t, exec (.bitZp 0x0010#16) (withByte 0x0F#8 0#8 0#8 0xF0#8 0#7) = .next t ∧ t.flags.z = true ∧ t.flags.n = true) ∧
    (∃ t, exec .clc (at' 0#16 0b1100001#7) = .next t ∧ t.flags.z = true ∧ t.flags.n = true) :=
  ⟨⟨_, rfl, by decide, by decide⟩, ⟨_, rfl, by decide, by decide⟩⟩

/-- ClearsSetTheirOneFlagFalse, ClearsAreIdempotentAndCommute: the worked example's state, and members of the lists. -/
theorem test_witness_clears :
    (at' 0x0200#16 0b0000010#7).flags.v = true ∧ (at' 0x0200#16 0b0000010#7).pc = 0x0200#16 ∧
    Instr.clc ∈ clears ∧ Instr.clv ∈ clears := by decide

/-- NoCommandSetsInertFlags: after CLI and CLD from all ones, the other inert flags are still true, and one changed. -/
theorem test_witness_inert_flags_kept :
    (∃ t, exec .cli (at' 0#16 0b1111111#7) = .next t ∧ t.flags.d = true ∧ t.flags.i ≠ (at' 0#16 0b1111111#7).flags.i) ∧
    (∃ t, exec .cld (at' 0#16 0b1111111#7) = .next t ∧ t.flags.i = true ∧ t.flags.d ≠ (at' 0#16 0b1111111#7).flags.d) :=
  ⟨⟨_, rfl, by decide, by decide⟩, ⟨_, rfl, by decide, by decide⟩⟩

/-- CommandsChangeOnlyWhatTheyWrite, NoCommandWritesMemory, StackPointerIsNeverUsed: a command that completes, and a
field it does not write. -/
theorem test_witness_frame :
    (∃ t, exec (.cpy 0x0010#16) (withByte 1#8 2#8 3#8 4#8 0#7) = .next t ∧ t.flags.n = true) ∧
    Field.v ∉ writes (.cpy 0x0010#16) := ⟨⟨_, rfl, by decide⟩, by decide⟩

/-- ModeIsCheckedBeforeMemory, third clause: a command that raises UnsupportedMode in a memory with no cells. -/
theorem test_witness_mode_before_memory :
    exec (.aslZp 0xFFFF#16) { start 0#8 0#7 with mem := ⟨0, []⟩ } = .fault (.unsupportedMode .zeroPage) := by rfl

/-- MemoryFormsFaultAlike: a member of the list, and both sides of the equivalence. -/
theorem test_witness_readers :
    Instr.cpx ∈ readers ∧ exec (.cpx 0x0300#16) (start 0#8 0#7) = .fault (.outOfRange 0x0300#16) ∧
    (start 0#8 0#7).mem.len.val ≤ (0x0300#16).toNat := ⟨by simp [readers], rfl, by decide⟩

/-- ErrorsLeaveTheStateUnchanged: each of the three errors under a host that goes on. -/
theorem test_witness_errors :
    ∃ s : State, s.host.moves = .issue 0x0C0000#24 :: [.issue 0xF00001#24] ∧ s.host.onError = .goOn ∧
      decode 0x0C0000#24 = .ok .adcAcc ∧ exec .adcAcc s = .fault (.unsupportedMode .accumulator) ∧
      exec .clrfZero s = .fault (.unsupportedClearFlag .zero) ∧
      exec (.cmp 0x0300#16) s = .fault (.outOfRange 0x0300#16) :=
  ⟨hosting [.issue 0x0C0000#24, .issue 0xF00001#24] .goOn (start 0#8 0#7), rfl, rfl, by decide, rfl, rfl, rfl⟩

/-- InertFlagsHaveNoEffect: two states that differ in I, D and B only, and a command that completes. -/
theorem test_witness_inert_states :
    eraseInert (start 0x01#8 0b1011101#7) = eraseInert (start 0x01#8 0b1000001#7) ∧
    start 0x01#8 0b1011101#7 ≠ start 0x01#8 0b1000001#7 ∧
    ∃ t, exec (.adcImm 0x01#8) (start 0x01#8 0b1011101#7) = .next t ∧ t.a = 0x02#8 :=
  ⟨by decide, by decide, _, rfl, by decide⟩

/-- IndexRegistersAreReadOnlyByTheirCompares: a command that is no CPX, one that is no CPY, and one that completes. -/
theorem test_witness_index_registers :
    (∀ a, (Instr.cpy 0x0010#16) ≠ .cpx a) ∧ (∀ a, (Instr.cpx 0x0010#16) ≠ .cpy a) ∧
    ∃ t, exec (.cpx 0x0010#16) (withByte 0#8 2#8 3#8 2#8 0#7) = .next t ∧ t.flags.z = true :=
  ⟨fun _ => by simp, fun _ => by simp, _, rfl, by decide⟩

/-- WellBehavedHostNeverStops: allowed commands, a read of the last cell and writes; a run of them answers. -/
theorem test_witness_behaved_host :
    ∃ s t, State.behaved s = true ∧ s.host.moves.length = 4 ∧ Host.Core.run Sys2Proof.core 2 s = .next t ∧
      t.host.replies = [.ok] :=
  ⟨hosting [.write (.cell 0x02FF#16 0x05#8), .issue 0xC002FF#24, .issue 0x30FFFF#24, .write (.stackPointer 0xFFFF#16)]
    .stop (start 0x06#8 0#7), _, by decide, rfl, rfl, by decide⟩

/-- HostThatGoesOnIsNeverStopped: moves that include a command that raises an error. -/
theorem test_witness_host_that_goes_on :
    ∃ s : State, s.host.onError = .goOn ∧ s.host.moves.all (takenMove s.mem.len.val) = true ∧ s.behaved = false :=
  ⟨hosting [.issue 0x1C0000#24, .issue 0xE00300#24, .write (.cell 0x02FF#16 0x05#8)] .goOn (start 0#8 0#7), rfl,
    by decide, by decide⟩

end Sys2Proof.Tests
end

section
/-! The frame of a command (00_scope.md R5): the fields that each operation's write leaves as they were, and what every
command that completes keeps. -/

namespace Sys2Proof.Frame

open Sys2Proof.Machine Sys2Proof.Claims

variable (s : State) {f : Field}

/-- A field outside ADC's writes (41_alu.md R80). -/
theorem sameField_addInto (v : Byte) (h : f ∉ [.a, .c, .v, .n, .z]) : sameField s (addInto s v) f = true := by
  cases f <;> simp [sameField, addInto] at h ⊢

/-- A field outside AND's writes (41_alu.md R82). -/
theorem sameField_andInto (v : Byte) (h : f ∉ [.a, .n, .z]) : sameField s (andInto s v) f = true := by
  cases f <;> simp [sameField, andInto] at h ⊢

/-- A field outside ASL's writes (41_alu.md R84). -/
theorem sameField_shiftInto (v : Byte) (h : f ∉ [.a, .c, .n, .z]) : sameField s (shiftInto s v) f = true := by
  cases f <;> simp [sameField, shiftInto] at h ⊢

/-- A field outside BIT's writes (43_bit_compare.md R100). -/
theorem sameField_testInto (m : Byte) (h : f ∉ [.z, .n, .v]) : sameField s (testInto s m) f = true := by
  cases f <;> simp [sameField, testInto] at h ⊢

/-- A field outside a compare's writes (43_bit_compare.md R102). -/
theorem sameField_compareInto (reg m : Byte) (h : f ∉ [.c, .z, .n]) :
    sameField s (compareInto s reg m) f = true := by
  cases f <;> simp [sameField, compareInto] at h ⊢

/-- A field other than PC, the one field of a branch (42_branch.md R90). -/
theorem sameField_setPc (pc : BitVec 16) (h : f ∉ [.pc]) : sameField s (s.setPc pc) f = true := by
  cases f <;> simp [sameField] at h ⊢

/-- The field of the block's record that holds a flag (10_state.md R15). -/
def flagField : Flag → Field
  | .carry => .c
  | .zero => .z
  | .interruptDisable => .i
  | .decimal => .d
  | .brk => .b
  | .overflow => .v
  | .negative => .n

/-- A field other than the one flag that is put, as by a clear (44_clear_flag.md R114). -/
theorem sameField_setFlags_put (g : Flag) (b : Bool) (h : f ∉ [flagField g]) :
    sameField s (s.setFlags (s.flags.put g b)) f = true := by
  cases g <;> cases f <;> simp [sameField, Flags.put, flagField] at h ⊢

/-- A command that completes keeps every field that its rule does not write. -/
theorem exec_next_sameField {i : Instr} {s t : State} (h : exec i s = .next t) (hf : f ∉ writes i) :
    sameField s t f = true := by
  rcases exec_next_cases h with
    ⟨v, hi, rfl⟩ | ⟨v, hi, rfl⟩ | ⟨rfl, rfl⟩ | ⟨m, hi, rfl⟩ | ⟨m, reg, hi, rfl⟩ | ⟨d, taken, hi, rfl⟩ | ⟨g, hi, rfl⟩
  · rcases hi with ⟨_, rfl⟩ | ⟨_, rfl⟩ | ⟨_, rfl⟩ <;> exact sameField_addInto s v hf
  · rcases hi with ⟨_, rfl⟩ | ⟨_, rfl⟩ | ⟨_, rfl⟩ <;> exact sameField_andInto s v hf
  · exact sameField_shiftInto s s.a hf
  · rcases hi with ⟨_, rfl⟩ | ⟨_, rfl⟩ <;> exact sameField_testInto s m hf
  · rcases hi with ⟨_, rfl, -⟩ | ⟨_, rfl, -⟩ | ⟨_, rfl, -⟩ <;> exact sameField_compareInto s reg m hf
  · rcases hi with ⟨rfl, -⟩ | ⟨rfl, -⟩ | ⟨rfl, -⟩ | ⟨rfl, -⟩ | ⟨rfl, -⟩ | ⟨rfl, -⟩ | ⟨rfl, -⟩ | ⟨rfl, -⟩ <;>
      exact sameField_setPc s _ hf
  · rcases hi with ⟨rfl, rfl⟩ | ⟨rfl, rfl⟩ | ⟨rfl, rfl⟩ | ⟨rfl, rfl⟩ <;> exact sameField_setFlags_put s _ false hf

/-- No operation writes memory (20_memory.md R35) or the host's side of the port. -/
theorem exec_next_mem_host {i : Instr} {s t : State} (h : exec i s = .next t) : t.mem = s.mem ∧ t.host = s.host := by
  rcases exec_next_cases h with
    ⟨v, -, rfl⟩ | ⟨v, -, rfl⟩ | ⟨-, rfl⟩ | ⟨m, -, rfl⟩ | ⟨m, reg, -, rfl⟩ | ⟨d, taken, -, rfl⟩ | ⟨g, -, rfl⟩ <;>
    exact ⟨rfl, rfl⟩

/-- Settles O38: the fields by the write of each operation, memory and the host's side because no operation writes them. -/
theorem commandsChangeOnlyWhatTheyWrite : Obligations.CommandsChangeOnlyWhatTheyWrite := by
  intro i s t h
  obtain ⟨hmem, hhost⟩ := exec_next_mem_host h
  exact ⟨fun _ hf => exec_next_sameField h hf, fun a => by rw [hmem], by rw [hmem], hhost⟩

end Sys2Proof.Frame
end

section
/-! One step of the port (00_scope.md R3, R4): MEM_LEN is fixed for a run, and a step is `exec` of the decoded command,
concluded. -/

namespace Sys2Proof.Port

open Sys2Proof.Machine Sys2Proof.Frame

/-- A host write keeps MEM_LEN, the write of a cell included (20_memory.md R44). -/
theorem hostWrite_next_len {w : HostWrite} {s t : State} (h : hostWrite w s = .next t) : t.mem.len = s.mem.len := by
  obtain ⟨-, hmem | ⟨a, v, -, hmem⟩⟩ := hostWrite_next h
  · rw [hmem]
  · rw [hmem, Memory.setByte_len]

/-- Settles O3: of the four things a step can be, a host write alone touches memory, and it keeps the length. -/
theorem noStepChangesMemoryLength : Obligations.NoStepChangesMemoryLength := by
  intro s t h
  rcases step_next_cases h with
    ⟨-, rfl⟩ | ⟨w, rest, -, hw⟩ | ⟨cw, rest, i, u, -, -, he, rfl⟩ | ⟨cw, rest, i, e, -, -, -, -, rfl⟩
  · rfl
  · rw [hostWrite_next_len hw, State.setMoves_mem]
  · have hmem := (exec_next_mem_host he).1
    rw [State.reply_mem, hmem, State.setMoves_mem]
  · rfl

/-- The word that `withFetchWord` puts first is the host's next move. -/
theorem withFetchWord_moves (s : State) (nbits w : Nat) :
    (s.withFetchWord nbits w).host.moves = .issue (tableWord nbits w) :: s.host.moves := rfl

/-- `withFetchWord` changes the host's list of moves alone: with the old list put back, the state is the old one. -/
theorem setMoves_withFetchWord (s : State) (nbits w : Nat) : (s.withFetchWord nbits w).setMoves s.host.moves = s := rfl

/-- Settles O11: a step with an accepted word next is `conclude` of `exec`, taken apart by `exec`'s outcome and the
host's policy. -/
theorem stepRunsTheDecodedCommand : Obligations.StepRunsTheDecodedCommand := by
  refine ⟨fun s cw rest i hm hd _ => ?_, fun s nbits w =>
    ⟨withFetchWord_moves s nbits w, setMoves_withFetchWord s nbits w⟩⟩
  have hstep := step_command hm hd
  refine ⟨fun t ht => ?_, fun e he hp => ?_, fun e he hp => ?_⟩
  · rw [hstep, ht, conclude_next]
  · rw [hstep, he, conclude_fault_stop (by rwa [State.setMoves_host_onError])]
  · rw [hstep, he, conclude_fault_goOn (by rwa [State.setMoves_host_onError])]

end Sys2Proof.Port
end

section
/-! Noninterference (10_state.md R11, R12, R14, R18, R21): a change of the state that touches nothing a command reads
goes through the command, and through the step that issues it. -/

namespace Sys2Proof.Noninterference

open Sys2Proof.Machine Sys2Proof.Claims Sys2Proof.Frame

/-- A change `g` of the state that no command but CPX and CPY can see: what the others read is as before, and each
operation's write comes to the same before `g` as after it. -/
structure Unread (g : State → State) : Prop where
  a_eq : ∀ s, (g s).a = s.a
  pc_eq : ∀ s, (g s).pc = s.pc
  mem_eq : ∀ s, (g s).mem = s.mem
  c_eq : ∀ s, (g s).flags.c = s.flags.c
  z_eq : ∀ s, (g s).flags.z = s.flags.z
  v_eq : ∀ s, (g s).flags.v = s.flags.v
  n_eq : ∀ s, (g s).flags.n = s.flags.n
  addInto_comm : ∀ s v, addInto (g s) v = g (addInto s v)
  andInto_comm : ∀ s v, andInto (g s) v = g (andInto s v)
  shiftInto_comm : ∀ s v, shiftInto (g s) v = g (shiftInto s v)
  testInto_comm : ∀ s m, testInto (g s) m = g (testInto s m)
  compareInto_comm : ∀ s reg m, compareInto (g s) reg m = g (compareInto s reg m)
  setPc_comm : ∀ s pc, (g s).setPc pc = g (s.setPc pc)
  put_comm : ∀ s f, (g s).setFlags ((g s).flags.put f false) = g (s.setFlags (s.flags.put f false))

namespace Unread

variable {g : State → State}

/-- A memory read sees nothing of an unread change; what is then written must commute with it. -/
theorem withMemory_comm (h : Unread g) {s : State} {write write' : Byte → State} (hw : ∀ m, write' m = g (write m))
    (a : Addr) : withMemory a (g s) write' = mapNext g (withMemory a s write) := by
  rw [withMemory_eq, withMemory_eq, h.mem_eq, hw]
  split <;> rfl

theorem branchWhen_comm (h : Unread g) (taken : Bool) (d : Int) (s : State) :
    branchWhen taken d (g s) = mapNext g (branchWhen taken d s) := by
  rw [branchWhen_eq, branchWhen_eq, h.pc_eq, h.setPc_comm, mapNext]

theorem clearFlag_comm (h : Unread g) (f : Flag) (s : State) :
    clearFlag f (g s) = mapNext g (clearFlag f s) := by
  rw [clearFlag_eq, clearFlag_eq, h.put_comm]
  split <;> rfl

/-- An unread change goes through every command; for CPX it must keep X, for CPY it must keep Y. -/
theorem exec_comm (h : Unread g) {i : Instr} {s : State}
    (hx : ∀ a, i = .cpx a → (g s).x = s.x) (hy : ∀ a, i = .cpy a → (g s).y = s.y) :
    exec i (g s) = mapNext g (exec i s) := by
  cases i with
  | adcImm n => exact congrArg _ (h.addInto_comm s n)
  | adcAbs a => simp only [exec_adcAbs]; exact h.withMemory_comm (h.addInto_comm s) a
  | adcZp a => simp only [exec_adcZp]; exact h.withMemory_comm (h.addInto_comm s) a
  | andImm n => exact congrArg _ (h.andInto_comm s n)
  | andAbs a => simp only [exec_andAbs]; exact h.withMemory_comm (h.andInto_comm s) a
  | andZp a => simp only [exec_andZp]; exact h.withMemory_comm (h.andInto_comm s) a
  | aslAcc => simp only [exec_aslAcc, h.a_eq, h.shiftInto_comm, mapNext]
  | bitAbs a => simp only [exec_bitAbs]; exact h.withMemory_comm (h.testInto_comm s) a
  | bitZp a => simp only [exec_bitZp]; exact h.withMemory_comm (h.testInto_comm s) a
  | bcc d => simp only [exec_bcc, h.c_eq, h.branchWhen_comm]
  | bcs d => simp only [exec_bcs, h.c_eq, h.branchWhen_comm]
  | beq d => simp only [exec_beq, h.z_eq, h.branchWhen_comm]
  | bne d => simp only [exec_bne, h.z_eq, h.branchWhen_comm]
  | bmi d => simp only [exec_bmi, h.n_eq, h.branchWhen_comm]
  | bpl d => simp only [exec_bpl, h.n_eq, h.branchWhen_comm]
  | bvc d => simp only [exec_bvc, h.v_eq, h.branchWhen_comm]
  | bvs d => simp only [exec_bvs, h.v_eq, h.branchWhen_comm]
  | cmp a => rw [exec_cmp, h.a_eq]; exact h.withMemory_comm (h.compareInto_comm s s.a) a
  | cpx a => rw [exec_cpx, hx a rfl]; exact h.withMemory_comm (h.compareInto_comm s s.x) a
  | cpy a => rw [exec_cpy, hy a rfl]; exact h.withMemory_comm (h.compareInto_comm s s.y) a
  | clc => exact h.clearFlag_comm .carry s
  | clrfZero => exact h.clearFlag_comm .zero s
  | cli => exact h.clearFlag_comm .interruptDisable s
  | cld => exact h.clearFlag_comm .decimal s
  | clrfBreak => exact h.clearFlag_comm .brk s
  | clv => exact h.clearFlag_comm .overflow s
  | clrfNegative => exact h.clearFlag_comm .negative s
  | adcAcc | andAcc | aslImm n | aslAbs a | aslZp a | bitImm n | bitAcc => rfl

end Unread

/-- The step with a move of the host next. -/
theorem step_move {s : State} {m : HostMove} {rest : List HostMove} (h : s.host.moves = m :: rest) :
    step s = runMove m (s.setMoves rest) := by
  simp only [step, nextMove, h]

/-- A change `g` that no command can see and that leaves the port at work as before: the moves, the policy, and the
status handed over last. -/
structure UnreadByPort (g : State → State) : Prop extends Unread g where
  x_eq : ∀ s, (g s).x = s.x
  y_eq : ∀ s, (g s).y = s.y
  moves_eq : ∀ s, (g s).host.moves = s.host.moves
  onError_eq : ∀ s, (g s).host.onError = s.host.onError
  setMoves_comm : ∀ s ms, (g s).setMoves ms = g (s.setMoves ms)
  reply_comm : ∀ s st, (g s).reply st = g (s.reply st)

namespace UnreadByPort

variable {g : State → State}

theorem conclude_comm (h : UnreadByPort g) (s : State) (o : Host.Outcome State Fault Refusal) :
    conclude (g s) (mapNext g o) = mapNext g (conclude s o) := by
  cases o with
  | next t => exact congrArg _ (h.reply_comm t .ok)
  | refused r => rfl
  | fault e =>
    cases hp : s.host.onError with
    | stop => rw [conclude_fault_stop hp]; exact conclude_fault_stop ((h.onError_eq s).trans hp) e
    | goOn =>
      rw [conclude_fault_goOn hp]
      exact (conclude_fault_goOn ((h.onError_eq s).trans hp) e).trans (congrArg _ (h.reply_comm s e.status))

/-- A word issued: refused, or executed and concluded; the change goes through both. -/
theorem issue_comm (h : UnreadByPort g) (cw : CommandWord) (s : State) : issue cw (g s) = mapNext g (issue cw s) := by
  cases hd : decode cw with
  | error why => simp only [issue, hd, mapNext]
  | ok i =>
    have hexec : exec i (g s) = mapNext g (exec i s) := h.exec_comm (fun _ _ => h.x_eq s) fun _ _ => h.y_eq s
    simp only [issue, hd, hexec, h.conclude_comm]

/-- What a host write shows of an unread change (through `k`, the view of the next state) is all that a step shows of
it. -/
theorem step_comm (h : UnreadByPort g) {k : State → State}
    (hwrite : ∀ w s, mapNext k (hostWrite w (g s)) = mapNext k (mapNext g (hostWrite w s))) (s : State) :
    mapNext k (step (g s)) = mapNext k (mapNext g (step s)) := by
  rcases hm : s.host.moves with _ | ⟨m, rest⟩
  · rw [step_idle hm, step_idle ((h.moves_eq s).trans hm)]; rfl
  · rw [step_move hm, step_move ((h.moves_eq s).trans hm), h.setMoves_comm]
    cases m with
    | issue cw => exact congrArg _ (h.issue_comm cw _)
    | write w => exact hwrite w _

end UnreadByPort

/-! ### What every command keeps -/

/-- The fields that no command writes: X, Y, SP (10_state.md R11, R12, R14) and B (R18). -/
theorem not_mem_writes (i : Instr) : ∀ f ∈ [Field.x, .y, .sp, .b], f ∉ writes i := by
  cases i <;> simp [writes]

/-- X, Y, SP and B are as before after a command that completes. -/
theorem exec_next_unwritten {i : Instr} {s t : State} (h : exec i s = .next t) :
    t.x = s.x ∧ t.y = s.y ∧ t.sp = s.sp ∧ t.flags.b = s.flags.b := by
  have keeps : ∀ f ∈ [Field.x, .y, .sp, .b], sameField s t f = true := fun f hf =>
    exec_next_sameField h (not_mem_writes i f hf)
  have hx := eq_of_beq (keeps .x (by decide))
  have hy := eq_of_beq (keeps .y (by decide))
  have hsp := eq_of_beq (keeps .sp (by decide))
  have hb := eq_of_beq (keeps .b (by decide))
  exact ⟨hx.symm, hy.symm, hsp.symm, hb.symm⟩

/-! ### The inert flags -/

theorem unreadByPort_eraseInert : UnreadByPort eraseInert := by
  constructor
  case toUnread =>
    constructor
    case put_comm => intro s f; cases f <;> rfl
    all_goals intros; rfl
  all_goals intros; rfl

/-- Erasing the inert flags twice is erasing them once. -/
theorem mapNext_eraseInert_twice (o : Host.Outcome State Fault Refusal) :
    mapNext eraseInert (mapNext eraseInert o) = mapNext eraseInert o := by
  cases o <;> rfl

/-- Up to the inert flags, a host write leaves the same from the erased state: a write of I, D or B, too. -/
theorem hostWrite_eraseInert (w : HostWrite) (s : State) :
    mapNext eraseInert (hostWrite w (eraseInert s)) = mapNext eraseInert (mapNext eraseInert (hostWrite w s)) := by
  cases w with
  | cell a v =>
    simp only [hostWrite, unreadByPort_eraseInert.mem_eq]
    split <;> rfl
  | flag f v => cases f <;> rfl
  | accumulator v | indexX v | indexY v | programCounter v | stackPointer v => rfl

/-- A command does from the erased state what it does from the state, erased. -/
theorem exec_eraseInert (i : Instr) (s : State) : exec i (eraseInert s) = mapNext eraseInert (exec i s) :=
  unreadByPort_eraseInert.exec_comm (fun _ _ => rfl) fun _ _ => rfl

/-- Up to the inert flags, a step does the same from the state and from the erased state. -/
theorem step_eraseInert (s : State) : mapNext eraseInert (step (eraseInert s)) = mapNext eraseInert (step s) :=
  (unreadByPort_eraseInert.step_comm hostWrite_eraseInert s).trans (mapNext_eraseInert_twice _)

/-- Settles O47: both states do what their common erased state does, and B is a field no command writes. -/
theorem inertFlagsHaveNoEffect : Obligations.InertFlagsHaveNoEffect := by
  intro s s' h
  refine ⟨fun i => ?_, ?_, fun i t ht => ?_⟩
  · rw [← exec_eraseInert, ← exec_eraseInert, h]
  · rw [← step_eraseInert, ← step_eraseInert s', h]
  · obtain ⟨-, -, -, hb⟩ := exec_next_unwritten ht
    exact hb

/-! ### Older statuses -/

/-- The state of a host that was handed the statuses `p` before all those it holds. -/
def withOlderReplies (p : List Status) (s : State) : State :=
  { s with host := { s.host with replies := s.host.replies ++ p } }

theorem unreadByPort_withOlderReplies (p : List Status) : UnreadByPort (withOlderReplies p) := by
  constructor
  case toUnread => constructor <;> intros <;> rfl
  all_goals intros; rfl

/-- A host write goes through the older statuses as they are. -/
theorem hostWrite_withOlderReplies (p : List Status) (w : HostWrite) (s : State) :
    hostWrite w (withOlderReplies p s) = mapNext (withOlderReplies p) (hostWrite w s) := by
  cases w with
  | cell a v =>
    simp only [hostWrite, (unreadByPort_withOlderReplies p).mem_eq]
    split <;> rfl
  | accumulator v | indexX v | indexY v | programCounter v | stackPointer v | flag f v => rfl

theorem mapNext_id (o : Host.Outcome State Fault Refusal) : mapNext id o = o := by
  cases o <;> rfl

/-- Settles O17: older statuses are unread by the port, and a host write shows nothing of them. -/
theorem stepNeverReadsEarlierStatuses : Obligations.StepNeverReadsEarlierStatuses := by
  intro s p
  have hstep := (unreadByPort_withOlderReplies p).step_comm (k := id)
    (fun w u => congrArg _ (hostWrite_withOlderReplies p w u)) s
  rwa [mapNext_id, mapNext_id] at hstep

/-! ### SP, X and Y -/

theorem unread_setSp (v : BitVec 16) : Unread (·.setSp v) := by constructor <;> intros <;> rfl

theorem unread_setX (v : Byte) : Unread (·.setX v) := by constructor <;> intros <;> rfl

theorem unread_setY (v : Byte) : Unread (·.setY v) := by constructor <;> intros <;> rfl

/-- Settles O48: SP is unread by every command, and a field that no command writes. -/
theorem stackPointerIsNeverUsed : Obligations.StackPointerIsNeverUsed := by
  intro i s v
  refine ⟨(unread_setSp v).exec_comm (fun _ _ => rfl) fun _ _ => rfl, fun t ht => ?_⟩
  obtain ⟨-, -, hsp, -⟩ := exec_next_unwritten ht
  exact hsp

/-- Settles O49: X is unread but by CPX, Y but by CPY, and both are fields that no command writes. -/
theorem indexRegistersAreReadOnlyByTheirCompares : Obligations.IndexRegistersAreReadOnlyByTheirCompares := by
  intro i s v
  refine ⟨fun hi => (unread_setX v).exec_comm (fun a ha => absurd ha (hi a)) fun _ _ => rfl,
    fun hi => (unread_setY v).exec_comm (fun _ _ => rfl) fun a ha => absurd ha (hi a), fun t ht => ?_⟩
  obtain ⟨hx, hy, -, -⟩ := exec_next_unwritten ht
  exact ⟨hx, hy⟩

end Sys2Proof.Noninterference
end

section
/-! The rules of the state record (10_state.md R13, R16, R17, R18, R25): which commands move PC, which leave Z and N both
true, which touch I and D, and what a host write sets. -/

namespace Sys2Proof.StateRules

open Sys2Proof.Machine Sys2Proof.Claims Sys2Proof.Frame Sys2Proof.Noninterference

/-! ### PC -/

/-- Settles O29: every operation but the branch keeps PC, and a branch not taken does too. -/
theorem onlyTakenBranchesMoveThePc : Obligations.OnlyTakenBranchesMoveThePc := by
  intro i s t h hpc
  rcases exec_next_cases h with
    ⟨v, -, rfl⟩ | ⟨v, -, rfl⟩ | ⟨-, rfl⟩ | ⟨m, -, rfl⟩ | ⟨m, reg, -, rfl⟩ | ⟨d, taken, hi, rfl⟩ | ⟨g, -, rfl⟩
  · exact absurd rfl hpc
  · exact absurd rfl hpc
  · exact absurd rfl hpc
  · exact absurd rfl hpc
  · exact absurd rfl hpc
  · cases taken with
    | false => exact absurd rfl hpc
    | true => exact ⟨d, branchTarget_toNat s.pc d, by simpa using hi⟩
  · exact absurd rfl hpc

/-! ### Z and N -/

/-- The result of an ALU operation is not both zero and negative (10_state.md R16). -/
theorem not_isZero_and_signBit (r : Byte) : ¬ (isZero r = true ∧ signBit r = true) := by
  rw [isZero_iff, signBit_iff]
  omega

/-- A compare's difference is not both zero and negative (43_bit_compare.md R102). -/
theorem not_z_and_n_afterCompare (fl : Flags) (reg m : Byte) :
    ¬ ((fl.afterCompare reg m).z = true ∧ (fl.afterCompare reg m).n = true) := by
  simp only [Flags.afterCompare_z, Flags.afterCompare_n, decide_eq_true_eq]
  omega

/-- BIT's worked example of both flags true: A = 0x0F and the byte 0xF0 (43_bit_compare.md R101). -/
theorem afterBit_of_0F_F0 (fl : Flags) :
    (fl.afterBit 0x0F#8 0xF0#8).z = true ∧ (fl.afterBit 0x0F#8 0xF0#8).n = true ∧
      (fl.afterBit 0x0F#8 0xF0#8).v = true := ⟨rfl, rfl, rfl⟩

/-- Settles O33: Z and N of a result or a difference exclude each other, branches and clears keep both; BIT is left. -/
theorem zeroAndNegativeTogetherOnlyFromBit : Obligations.ZeroAndNegativeTogetherOnlyFromBit := by
  refine ⟨fun i s t h hz hn => ?_, fun s ha hlen hm => ?_⟩
  · rcases exec_next_cases h with
      ⟨v, -, rfl⟩ | ⟨v, -, rfl⟩ | ⟨-, rfl⟩ | ⟨m, hi, rfl⟩ | ⟨m, reg, -, rfl⟩ | ⟨d, taken, -, rfl⟩ | ⟨g, hg, rfl⟩
    · exact absurd ⟨hz, hn⟩ (not_isZero_and_signBit _)
    · exact absurd ⟨hz, hn⟩ (not_isZero_and_signBit _)
    · exact absurd ⟨hz, hn⟩ (not_isZero_and_signBit _)
    · exact hi.imp_right .inl
    · exact absurd ⟨hz, hn⟩ (not_z_and_n_afterCompare s.flags reg m)
    · exact .inr (.inr ⟨hz, hn⟩)
    · refine .inr (.inr ?_)
      rcases hg with ⟨-, rfl⟩ | ⟨-, rfl⟩ | ⟨-, rfl⟩ | ⟨-, rfl⟩ <;> exact ⟨hz, hn⟩
  · have hbyte : s.mem.byteAt (0x0010#16).toNat = 0xF0#8 := hm
    have hin : (0x0010#16).toNat < s.mem.len.val := hlen
    refine ⟨testInto s 0xF0#8, ?_, ?_⟩
    · rw [exec_bitAbs, withMemory_eq, if_pos hin, hbyte]
    · simpa only [testInto, State.setFlags_flags, ha] using afterBit_of_0F_F0 s.flags

/-! ### I, D and B -/

theorem mem_writes_i {i : Instr} : Field.i ∈ writes i ↔ i = .cli := by cases i <;> simp [writes]

theorem mem_writes_d {i : Instr} : Field.d ∈ writes i ↔ i = .cld := by cases i <;> simp [writes]

/-- I is as before after every command but CLI, which makes it false. -/
theorem exec_next_i {i : Instr} {s t : State} (h : exec i s = .next t) :
    t.flags.i = s.flags.i ∨ i = .cli ∧ t.flags.i = false := by
  by_cases hi : i = .cli
  · subst hi; cases h; exact .inr ⟨rfl, rfl⟩
  · have hf := exec_next_sameField h (mt mem_writes_i.mp hi)
    exact .inl (eq_of_beq hf).symm

/-- D is as before after every command but CLD, which makes it false. -/
theorem exec_next_d {i : Instr} {s t : State} (h : exec i s = .next t) :
    t.flags.d = s.flags.d ∨ i = .cld ∧ t.flags.d = false := by
  by_cases hi : i = .cld
  · subst hi; cases h; exact .inr ⟨rfl, rfl⟩
  · have hf := exec_next_sameField h (mt mem_writes_d.mp hi)
    exact .inl (eq_of_beq hf).symm

/-- Settles O37: I and D by their one writer, B because no command writes it. -/
theorem noCommandSetsInertFlags : Obligations.NoCommandSetsInertFlags := by
  intro i s t h
  obtain ⟨-, -, -, hb⟩ := exec_next_unwritten h
  refine ⟨fun ht => ?_, fun ht => ?_, hb, fun hne => ?_, fun hne => ?_⟩
  · rcases exec_next_i h with hi | ⟨-, hf⟩
    · exact hi ▸ ht
    · exact absurd (hf.symm.trans ht) Bool.false_ne_true
  · rcases exec_next_d h with hd | ⟨-, hf⟩
    · exact hd ▸ ht
    · exact absurd (hf.symm.trans ht) Bool.false_ne_true
  · exact ((exec_next_i h).resolve_left hne).1
  · exact ((exec_next_d h).resolve_left hne).1

/-! ### Host writes -/

/-- A host write of a flag sets that flag and keeps the six others (10_state.md R16). -/
theorem hostWrite_flag (f : Flag) (b : Bool) (s : State) :
    ∃ t, hostWrite (.flag f b) s = .next t ∧ t = { s with flags := t.flags } ∧ t.flags.get f = b ∧
      ∀ g, g ≠ f → t.flags.get g = s.flags.get g :=
  ⟨_, rfl, rfl, by simp, fun g hg => by simp [hg]⟩

/-- A host write of a cell at or beyond MEM_LEN is refused (log entry 6). -/
theorem hostWrite_cell_outside {s : State} {a : Addr} {v : Byte} (h : s.mem.len.val ≤ a.toNat) :
    hostWrite (.cell a v) s = .refused (.noSuchCell a) := by
  simp [hostWrite, Nat.not_lt.mpr h]

/-- Settles O12: the step is the host write from the state with the move taken; with no move left it is idle. -/
theorem hostWritesSetOneField : Obligations.HostWritesSetOneField := by
  intro s rest v w f b
  refine ⟨step_write, step_write, step_write, step_write, step_write, fun h => ?_, fun h hw => ?_, step_idle⟩
  · rw [step_write h]; exact hostWrite_flag f b (s.setMoves rest)
  · rw [step_write h]; exact hostWrite_cell_outside hw

end Sys2Proof.StateRules
end

section
/-! Memory (20_memory.md R30, R32, R35, R41, R44): the canonical form that every step keeps and that is one per content,
what a read answers, and which move writes a cell. -/

namespace Sys2Proof.MemoryRules

open Sys2Proof.Machine Sys2Proof.Frame

/-! ### The canonical form -/

/-- A step keeps memory or writes one cell that exists: a host write is the one move that touches memory. -/
theorem step_next_mem {s t : State} (h : step s = .next t) :
    t.mem = s.mem ∨ ∃ a v, a < s.mem.len.val ∧ t.mem = s.mem.setByte a v := by
  rcases step_next_cases h with
    ⟨-, rfl⟩ | ⟨w, rest, -, hw⟩ | ⟨cw, rest, i, u, -, -, he, rfl⟩ | ⟨cw, rest, i, e, -, -, -, -, rfl⟩
  · exact .inl rfl
  · obtain ⟨-, hmem⟩ := hostWrite_next hw
    exact hmem
  · obtain ⟨hmem, -⟩ := exec_next_mem_host he
    exact .inl hmem
  · exact .inl rfl

/-- Settles O2: memory kept is canonical as before, and so is memory with one existing cell written. -/
theorem everyStepKeepsCanonicalMemory : Obligations.EveryStepKeepsCanonicalMemory := by
  intro s t hs h
  have hwf : s.mem.wf = true := hs
  show t.mem.wf = true
  rcases step_next_mem h with hmem | ⟨a, v, ha, hmem⟩
  · rw [hmem, hwf]
  · rw [hmem, Memory.wf_setByte hwf ha]

/-- A canonical list is canonical from the address of its first cell. -/
theorem cellsWf_from_head {len lo k : Nat} {v : Byte} {rest : List Host.Cell}
    (h : cellsWf len lo ((k, v) :: rest) = true) : cellsWf len k ((k, v) :: rest) = true := by
  obtain ⟨-, hk, hv, hrest⟩ := cellsWf_cons.mp h
  exact cellsWf_cons.mpr ⟨le_rfl, hk, hv, hrest⟩

/-- The first cell of a canonical list holds a byte that no unlisted cell holds, so a canonical list that reads the same
there starts no later. -/
theorem le_head_of_sameRead {len lo lo' k : Nat} {v : Byte} {rest cells : List Host.Cell}
    (h : cellsWf len lo ((k, v) :: rest) = true) (h' : cellsWf len lo' cells = true)
    (hread : lookupCell ((k, v) :: rest) k = lookupCell cells k) : lo' ≤ k := by
  by_contra hlt
  obtain ⟨-, -, hv, -⟩ := cellsWf_cons.mp h
  have hunlisted : lookupCell cells k = Config.unlistedByte := lookupCell_below h' (by omega)
  exact hv (by rw [← hunlisted, ← hread, lookupCell, if_pos rfl])

/-- Two canonical lists that read the same below MEM_LEN are the same list. -/
theorem cells_eq_of_sameReads {len lo : Nat} {cells cells' : List Host.Cell} (h : cellsWf len lo cells = true)
    (h' : cellsWf len lo cells' = true) (hread : ∀ a < len, lookupCell cells a = lookupCell cells' a) :
    cells = cells' := by
  induction cells generalizing lo cells' with
  | nil =>
    cases cells' with
    | nil => rfl
    | cons c' rest' =>
      obtain ⟨-, hk', -, -⟩ := cellsWf_cons.mp h'
      have hle := le_head_of_sameRead (lo' := c'.1 + 1) (cells := []) h' rfl (hread _ hk').symm
      omega
  | cons c rest ih =>
    obtain ⟨k, v⟩ := c
    obtain ⟨-, hk, -, hrest⟩ := cellsWf_cons.mp h
    cases cells' with
    | nil =>
      have hle := le_head_of_sameRead (lo' := k + 1) (cells := []) h rfl (hread k hk)
      omega
    | cons c' rest' =>
      obtain ⟨k', v'⟩ := c'
      obtain ⟨-, hk', -, hrest'⟩ := cellsWf_cons.mp h'
      have hkk' : k = k' :=
        Nat.le_antisymm (le_head_of_sameRead h' (cellsWf_from_head h) (hread k' hk').symm)
          (le_head_of_sameRead h (cellsWf_from_head h') (hread k hk))
      subst hkk'
      have hv : v = v' := by simpa [lookupCell] using hread k hk
      have htail : rest = rest' := ih hrest hrest' fun a ha => by
        by_cases hak : a ≤ k
        · rw [lookupCell_below hrest (by omega), lookupCell_below hrest' (by omega)]
        · have hne : k ≠ a := by omega
          simpa [lookupCell, hne] using hread a ha
      rw [hv, htail]

/-- Settles O4: the lists of cells are equal, every number below MEM_LEN being an address. -/
theorem sameReadsMeanSameMemory : Obligations.SameReadsMeanSameMemory := by
  rintro ⟨len, cells⟩ ⟨len', cells'⟩ h h' rfl hread
  have hcells : cells = cells' := cells_eq_of_sameReads h h' fun a ha => by
    have haddr : (BitVec.ofNat 16 a).toNat = a := by
      rw [BitVec.toNat_ofNat, Nat.mod_eq_of_lt]
      omega
    have hbyte := hread (BitVec.ofNat 16 a)
    rw [haddr] at hbyte
    exact hbyte ha
  rw [hcells]

/-! ### What a read answers -/

/-- The two answers of a read, by the one bound (20_memory.md R32). -/
theorem memRead_eq (s : State) (a : Addr) :
    memRead s a = if a.toNat < s.mem.len.val then .ok (s.mem.byteAt a.toNat) else .error (.outOfRange a) := by
  split
  · next h => exact memRead_inside h
  · next h => exact memRead_outside (Nat.not_lt.mp h)

/-- A read looks at memory only (20_memory.md R32). -/
theorem memRead_congr {s t : State} (h : t.mem = s.mem) (a : Addr) : memRead t a = memRead s a := by
  rw [memRead_eq, memRead_eq, h]

/-- A read after a write of a cell that exists: the byte at its address, what was read before at every other. -/
theorem memRead_setByte {s : State} {a : Addr} {v : Byte} (h : s.mem.wf = true) (ha : a.toNat < s.mem.len.val)
    (b : Addr) : memRead (s.setMem (s.mem.setByte a.toNat v)) b = if b = a then .ok v else memRead s b := by
  rw [memRead_eq, memRead_eq, State.setMem_mem, Memory.setByte_len, Memory.byteAt_setByte h]
  by_cases hb : b = a
  · rw [hb, if_pos ha, if_pos rfl, if_pos rfl]
  · have hnat : b.toNat ≠ a.toNat := mt BitVec.toNat_inj.mp hb
    rw [if_neg hnat, if_neg hb]

/-- A host write of a cell that exists is made (20_memory.md R44). -/
theorem hostWrite_cell_inside {s : State} {a : Addr} {v : Byte} (h : a.toNat < s.mem.len.val) :
    hostWrite (.cell a v) s = .next (s.setMem (s.mem.setByte a.toNat v)) := by
  simp [hostWrite, h]

/-- Settles O13: the step is the host's write of that cell, and the reads after it are those after a write. -/
theorem readAfterHostWriteReturnsIt : Obligations.ReadAfterHostWriteReturnsIt := by
  intro s rest a v hs hm ha
  have hread := memRead_setByte (s := s.setMoves rest) (v := v) hs ha
  refine ⟨_, (step_write hm).trans (hostWrite_cell_inside ha), rfl, ?_, fun b hb => ?_⟩
  · rw [hread, if_pos rfl]
  · rw [hread, if_neg hb, memRead_congr (State.setMoves_mem s rest)]

/-- Settles O39: a command that completes leaves the memory itself as it was. -/
theorem noCommandWritesMemory : Obligations.NoCommandWritesMemory := by
  intro i s t h
  obtain ⟨hmem, -⟩ := exec_next_mem_host h
  exact ⟨fun a => by rw [hmem], memRead_congr hmem⟩

/-- Settles O40: the two extreme lengths are the two cases with every address on one side. -/
theorem memReadFaultsAtAndBeyondTheLength : Obligations.MemReadFaultsAtAndBeyondTheLength := by
  intro s a
  refine ⟨memRead_outside, memRead_inside, fun h => memRead_outside ?_, fun h => ⟨_, memRead_inside ?_⟩⟩
  · omega
  · rw [h]; exact a.isLt

/-! ### The host's moves in order -/

/-- Settles O14: a host write and a command keep the host's side, and a status handed over leaves the moves and the
policy; so what a step changes of the two is the move it took. -/
theorem stepsTakeTheMovesInOrder : Obligations.StepsTakeTheMovesInOrder := by
  intro s t h
  rcases step_next_cases h with
    ⟨hm, rfl⟩ | ⟨w, rest, hm, hw⟩ | ⟨cw, rest, i, u, hm, -, he, rfl⟩ | ⟨cw, rest, i, e, hm, -, -, -, rfl⟩
  · exact ⟨by rw [hm, List.tail_nil], rfl⟩
  · obtain ⟨hhost, -⟩ := hostWrite_next hw
    rw [hhost, hm]
    exact ⟨rfl, rfl⟩
  · obtain ⟨-, hhost⟩ := exec_next_mem_host he
    rw [State.reply_host_moves, State.reply_host_onError, hhost, hm]
    exact ⟨rfl, rfl⟩
  · rw [State.reply_host_moves, State.reply_host_onError, hm]
    exact ⟨rfl, rfl⟩

end Sys2Proof.MemoryRules
end

section
/-! The command word (30_encoding.md R54 to R62): what each of the four formats accepts, the format of each operation
code, and from these the round trips between words and commands, the five refused classes and the rows of the opcode
table. -/

namespace Sys2Proof.Encoding

open Sys2Proof.Machine Sys2Proof.Laws

/-! ### The fields as numbers (R54) -/

theorem cwOp_toNat (cw : CommandWord) : (cwOp cw).toNat = cw.toNat / 2 ^ 20 := by
  have h := cw.isLt
  simp only [cwOp, BitVec.extractLsb'_toNat, Nat.shiftRight_eq_div_pow]
  omega

theorem cwMode_toNat (cw : CommandWord) : (cwMode cw).toNat = cw.toNat / 2 ^ 18 % 4 := by
  simp only [cwMode, BitVec.extractLsb'_toNat, Nat.shiftRight_eq_div_pow]

theorem cwRsv_toNat (cw : CommandWord) : (cwRsv cw).toNat = cw.toNat / 2 ^ 16 % 4 := by
  simp only [cwRsv, BitVec.extractLsb'_toNat, Nat.shiftRight_eq_div_pow]

theorem cwOpr_toNat (cw : CommandWord) : (cwOpr cw).toNat = cw.toNat % 2 ^ 16 := by
  simp only [cwOpr, BitVec.extractLsb'_toNat, Nat.shiftRight_zero]

/-! ### The operand fields of formats M, B and F -/

/-- An operand field that passes the check of format M is its own literal written in 16 bits. -/
theorem setWidth_literal {opr : BitVec 16} (h : ¬ 255 < opr.toNat) : (opr.setWidth 8).setWidth 16 = opr := by
  apply BitVec.eq_of_toNat_eq
  simp only [BitVec.toNat_setWidth]
  omega

/-- A displacement read from 16 bits is in range (R59). -/
theorem displacementInRange_toInt (opr : BitVec 16) : displacementInRange opr.toInt = true :=
  displacementInRange_iff.mpr ⟨by have := BitVec.le_toInt opr; omega, by have := BitVec.toInt_lt (x := opr); omega⟩

theorem selectorHighBits_eq_zero_iff {opr : BitVec 16} : opr.extractLsb' 3 13 = 0 ↔ opr.toNat / 8 = 0 := by
  have h := opr.isLt
  rw [← BitVec.toNat_inj]
  simp only [BitVec.extractLsb'_toNat, Nat.shiftRight_eq_div_pow, BitVec.ofNat_eq_ofNat, BitVec.toNat_ofNat]
  omega

theorem selector_toNat (opr : BitVec 16) : (opr.extractLsb' 0 3).toNat = opr.toNat % 8 := by
  simp only [BitVec.extractLsb'_toNat, Nat.shiftRight_zero]

/-- With `opr[15:3]` 0 the operand field is the selector (R61). -/
theorem opr_eq_selector {opr : BitVec 16} (hhigh : opr.extractLsb' 3 13 = 0) :
    opr = BitVec.ofNat 16 (opr.extractLsb' 0 3).toNat := by
  have hdiv := selectorHighBits_eq_zero_iff.mp hhigh
  apply BitVec.eq_of_toNat_eq
  rw [selector_toNat, BitVec.toNat_ofNat]
  omega

/-! ### What each format refuses (R62) -/

theorem field_ne_zero_iff {x : BitVec 2} : x ≠ 0 ↔ x.toNat ≠ 0 := by
  rw [ne_eq, ← BitVec.toNat_inj]
  rfl

theorem decodeFormatM_error_iff {imm : Byte → Instr} {abs zp : Addr → Instr} {acc : Instr} {mode : BitVec 2}
    {opr : BitVec 16} :
    (∃ why, decodeFormatM imm abs zp acc mode opr = .error why) ↔ mode.toNat = 0 ∧ 255 < opr.toNat := by
  unfold decodeFormatM
  split
  · next h => split <;> simp_all
  · next h => simp [h]
  · next h => simp [h]
  · next h _ _ => exact iff_of_false (fun ⟨_, hok⟩ => nomatch hok) fun ⟨hzero, _⟩ => h hzero

theorem decodeFormatA_error_iff {mk : Addr → Instr} {mode : BitVec 2} {opr : BitVec 16} :
    (∃ why, decodeFormatA mk mode opr = .error why) ↔ mode.toNat ≠ 0 := by
  rw [← field_ne_zero_iff, decodeFormatA]
  split
  · next h => simpa using h
  · next h => simpa using h

theorem decodeFormatF_error_iff {mode : BitVec 2} {opr : BitVec 16} :
    (∃ why, decodeFormatF mode opr = .error why) ↔
      mode.toNat ≠ 0 ∨ opr.toNat / 8 ≠ 0 ∨ opr.toNat % 8 = 7 := by
  rw [← field_ne_zero_iff, ← selectorHighBits_eq_zero_iff.ne, ← selector_toNat, decodeFormatF]
  split
  · next hmode => exact iff_of_true ⟨_, rfl⟩ (.inl hmode)
  next hmode =>
  split
  · next hhigh => exact iff_of_true ⟨_, rfl⟩ (.inr (.inl hhigh))
  next hhigh =>
  simp only [hmode, hhigh, false_or]
  have hlt := (opr.extractLsb' 0 3).isLt
  generalize (opr.extractLsb' 0 3).toNat = sel at hlt
  interval_cases sel <;> simp

/-! ### The command that a word's fields carry -/

/-- The four rows of accumulator mode, whose operand field the decoder ignores (R60). -/
def ignoresOperand : Instr → Bool
  | .adcAcc | .andAcc | .aslAcc | .bitAcc => true
  | _ => false

theorem ignoresOperand_iff {i : Instr} :
    ignoresOperand i = true ↔ i = .adcAcc ∨ i = .andAcc ∨ i = .aslAcc ∨ i = .bitAcc := by
  cases i <;> simp [ignoresOperand]

/-- `i` is well-formed and its word has the fields `op mode opr`, but for an operand field that it ignores. -/
def CarriedBy (op : BitVec 4) (mode : BitVec 2) (opr : BitVec 16) (i : Instr) : Prop :=
  i.wellFormed = true ∧ encode i = commandWord op mode (if ignoresOperand i then 0#16 else opr)

/-- The branches: the displacement read from the operand field is in range and is written back as that field (R59). -/
theorem carriedBy_branch {op : BitVec 4} {mk : Int → Instr} (hwf : ∀ d, (mk d).wellFormed = displacementInRange d)
    (hacc : ∀ d, ignoresOperand (mk d) = false) (henc : ∀ d, encode (mk d) = wordB op d) (opr : BitVec 16) :
    CarriedBy op 0#2 opr (mk opr.toInt) := by
  refine ⟨(hwf _).trans (displacementInRange_toInt opr), ?_⟩
  rw [henc, hacc, wordB, BitVec.ofInt_toInt]
  rfl

theorem decodeFormatM_carriedBy {op : BitVec 4} {imm : Byte → Instr} {abs zp : Addr → Instr} {acc : Instr}
    (himm : ∀ n : Byte, CarriedBy op 0#2 (n.setWidth 16) (imm n)) (habs : ∀ a, CarriedBy op 1#2 a (abs a))
    (hzp : ∀ a, CarriedBy op 2#2 a (zp a)) (hacc : ∀ opr, CarriedBy op 3#2 opr acc)
    {mode : BitVec 2} {opr : BitVec 16} {i : Instr} (h : decodeFormatM imm abs zp acc mode opr = .ok i) :
    CarriedBy op mode opr i := by
  have hlt := mode.isLt
  unfold decodeFormatM at h
  split at h
  · next hm =>
    split at h
    · cases h
    · next hle =>
      cases h
      rw [BitVec.eq_of_toNat_eq (y := 0#2) hm]
      simpa only [setWidth_literal hle] using himm (opr.setWidth 8)
  · next hm => cases h; rw [BitVec.eq_of_toNat_eq (y := 1#2) hm]; exact habs opr
  · next hm => cases h; rw [BitVec.eq_of_toNat_eq (y := 2#2) hm]; exact hzp opr
  · next h0 h1 h2 =>
    cases h
    have hm : mode.toNat = 3 := by simp only [imp_false] at h0 h1 h2; omega
    rw [BitVec.eq_of_toNat_eq (y := 3#2) hm]
    exact hacc opr

theorem decodeFormatA_carriedBy {op : BitVec 4} {mk : Addr → Instr} (hmk : ∀ a, CarriedBy op 0#2 a (mk a))
    {mode : BitVec 2} {opr : BitVec 16} {i : Instr} (h : decodeFormatA mk mode opr = .ok i) :
    CarriedBy op mode opr i := by
  unfold decodeFormatA at h
  split at h
  · cases h
  · next hm =>
    cases h
    rw [not_not.mp hm]
    exact hmk opr

theorem decodeFormatF_carriedBy {mode : BitVec 2} {opr : BitVec 16} {i : Instr} (h : decodeFormatF mode opr = .ok i) :
    CarriedBy 15#4 mode opr i := by
  unfold decodeFormatF at h
  split at h
  · cases h
  next hm =>
  rw [not_not.mp hm]
  split at h
  · cases h
  next hhigh =>
  rw [opr_eq_selector (not_not.mp hhigh)]
  split at h
  case h_8 => cases h
  all_goals next hsel => cases h; rw [hsel]; exact ⟨rfl, rfl⟩

/-! ### The format of each operation code (R55, R57) -/

/-- The format of an operation code, with the commands that the decoder and the encoder agree on. A format B is a
format A whose command is made from the field read as two's complement. -/
inductive OpFormat (op : BitVec 4) : Prop
  | formatM (imm : Byte → Instr) (abs zp : Addr → Instr) (acc : Instr) (hop : op.toNat ∈ [0, 1, 2, 11])
      (hdecode : decodeOp op = decodeFormatM imm abs zp acc)
      (himm : ∀ n : Byte, CarriedBy op 0#2 (n.setWidth 16) (imm n)) (habs : ∀ a, CarriedBy op 1#2 a (abs a))
      (hzp : ∀ a, CarriedBy op 2#2 a (zp a)) (hacc : ∀ opr, CarriedBy op 3#2 opr acc)
  | formatAB (mk : Addr → Instr) (hop : op.toNat ∈ [3, 4, 5, 6, 7, 8, 9, 10, 12, 13, 14])
      (hdecode : decodeOp op = decodeFormatA mk) (hmk : ∀ a, CarriedBy op 0#2 a (mk a))
  | formatF (hop : op = 15#4)

/-- Every operation code has its format. -/
theorem opFormat (op : BitVec 4) : OpFormat op := by
  have hlt := op.isLt
  obtain ⟨k, hk⟩ : ∃ k, op.toNat = k := ⟨_, rfl⟩
  obtain rfl : op = BitVec.ofNat 4 k := by rw [← hk, BitVec.ofNat_toNat, BitVec.setWidth_eq]
  rw [hk] at hlt
  interval_cases k
  · exact .formatM .adcImm .adcAbs .adcZp .adcAcc (by decide) rfl
      (fun _ => ⟨rfl, rfl⟩) (fun _ => ⟨rfl, rfl⟩) (fun _ => ⟨rfl, rfl⟩) (fun _ => ⟨rfl, rfl⟩)
  · exact .formatM .andImm .andAbs .andZp .andAcc (by decide) rfl
      (fun _ => ⟨rfl, rfl⟩) (fun _ => ⟨rfl, rfl⟩) (fun _ => ⟨rfl, rfl⟩) (fun _ => ⟨rfl, rfl⟩)
  · exact .formatM .aslImm .aslAbs .aslZp .aslAcc (by decide) rfl
      (fun _ => ⟨rfl, rfl⟩) (fun _ => ⟨rfl, rfl⟩) (fun _ => ⟨rfl, rfl⟩) (fun _ => ⟨rfl, rfl⟩)
  · exact .formatAB _ (by decide) rfl (carriedBy_branch (mk := .bcc) (fun _ => rfl) (fun _ => rfl) fun _ => rfl)
  · exact .formatAB _ (by decide) rfl (carriedBy_branch (mk := .bcs) (fun _ => rfl) (fun _ => rfl) fun _ => rfl)
  · exact .formatAB _ (by decide) rfl (carriedBy_branch (mk := .beq) (fun _ => rfl) (fun _ => rfl) fun _ => rfl)
  · exact .formatAB _ (by decide) rfl (carriedBy_branch (mk := .bne) (fun _ => rfl) (fun _ => rfl) fun _ => rfl)
  · exact .formatAB _ (by decide) rfl (carriedBy_branch (mk := .bmi) (fun _ => rfl) (fun _ => rfl) fun _ => rfl)
  · exact .formatAB _ (by decide) rfl (carriedBy_branch (mk := .bpl) (fun _ => rfl) (fun _ => rfl) fun _ => rfl)
  · exact .formatAB _ (by decide) rfl (carriedBy_branch (mk := .bvc) (fun _ => rfl) (fun _ => rfl) fun _ => rfl)
  · exact .formatAB _ (by decide) rfl (carriedBy_branch (mk := .bvs) (fun _ => rfl) (fun _ => rfl) fun _ => rfl)
  · exact .formatM .bitImm .bitAbs .bitZp .bitAcc (by decide) rfl
      (fun _ => ⟨rfl, rfl⟩) (fun _ => ⟨rfl, rfl⟩) (fun _ => ⟨rfl, rfl⟩) (fun _ => ⟨rfl, rfl⟩)
  · exact .formatAB .cmp (by decide) rfl fun _ => ⟨rfl, rfl⟩
  · exact .formatAB .cpx (by decide) rfl fun _ => ⟨rfl, rfl⟩
  · exact .formatAB .cpy (by decide) rfl fun _ => ⟨rfl, rfl⟩
  · exact .formatF rfl

/-- An accepted word's fields carry the command it decodes to. -/
theorem decodeOp_carriedBy {op : BitVec 4} {mode : BitVec 2} {opr : BitVec 16} {i : Instr}
    (h : decodeOp op mode opr = .ok i) : CarriedBy op mode opr i := by
  cases opFormat op with
  | formatM imm abs zp acc _ hdecode himm habs hzp hacc =>
    exact decodeFormatM_carriedBy himm habs hzp hacc (by rwa [hdecode] at h)
  | formatAB mk _ hdecode hmk => exact decodeFormatA_carriedBy hmk (by rwa [hdecode] at h)
  | formatF hop => subst hop; exact decodeFormatF_carriedBy h

/-- The refused fields of a word with `rsv` 0: items 2 to 5 of R62. -/
theorem decodeOp_error_iff {op : BitVec 4} {mode : BitVec 2} {opr : BitVec 16} :
    (∃ why, decodeOp op mode opr = .error why) ↔
      (op.toNat ∈ [3, 4, 5, 6, 7, 8, 9, 10, 12, 13, 14, 15] ∧ mode.toNat ≠ 0) ∨
      (op.toNat ∈ [0, 1, 2, 11] ∧ mode.toNat = 0 ∧ 255 < opr.toNat) ∨
      (op.toNat = 15 ∧ opr.toNat / 8 ≠ 0) ∨ (op.toNat = 15 ∧ opr.toNat % 8 = 7) := by
  cases opFormat op with
  | formatM imm abs zp acc hop hdecode =>
    rw [hdecode, decodeFormatM_error_iff]
    simp only [List.mem_cons, List.not_mem_nil, or_false] at hop ⊢
    omega
  | formatAB mk hop hdecode =>
    rw [hdecode, decodeFormatA_error_iff]
    simp only [List.mem_cons, List.not_mem_nil, or_false] at hop ⊢
    omega
  | formatF hop =>
    subst hop
    refine decodeFormatF_error_iff.trans ?_
    simp

/-! ### Words and commands -/

theorem decode_ok_iff {cw : CommandWord} {i : Instr} :
    decode cw = .ok i ↔ cwRsv cw = 0 ∧ decodeOp (cwOp cw) (cwMode cw) (cwOpr cw) = .ok i := by
  unfold decode
  split <;> simp_all

theorem decode_error_iff {cw : CommandWord} :
    (∃ why, decode cw = .error why) ↔
      cwRsv cw ≠ 0 ∨ ∃ why, decodeOp (cwOp cw) (cwMode cw) (cwOpr cw) = .error why := by
  unfold decode
  split <;> simp_all

/-- A literal written in 16 bits passes the check of format M and is read back (R60). -/
theorem decode_wordM_immediate {op : BitVec 4} {imm : Byte → Instr} {abs zp : Addr → Instr} {acc : Instr}
    (hop : decodeOp op = decodeFormatM imm abs zp acc) (n : Byte) :
    decode (wordM op .immediate (n.setWidth 16)) = .ok (imm n) := by
  have hn : ¬ 255 < (n.setWidth 16).toNat := by
    have := n.isLt
    rw [BitVec.toNat_setWidth]
    omega
  have hback : (n.setWidth 16).setWidth 8 = n := by simp
  rw [wordM, decode_commandWord, hop]
  exact (if_neg hn).trans (by rw [hback])

/-- A displacement in range is read back from a word of format B (R59). -/
theorem decode_wordB {op : BitVec 4} {mk : Int → Instr} (hop : decodeOp op = decodeFormatB mk) {d : Int}
    (hd : displacementInRange d = true) : decode (wordB op d) = .ok (mk d) := by
  rw [wordB, decode_commandWord, hop, decodeFormatB, toInt_ofInt_of_inRange hd]
  rfl

/-- Settles O5: a word built from fields decodes by its fields, and each format reads back the operand that the encoder
wrote; only the literal's and the displacement's fields are not the operand itself. -/
theorem decodeOfEncodeIsTheCommand : Obligations.DecodeOfEncodeIsTheCommand := by
  intro i hwf
  cases i with
  | adcImm n | andImm n | aslImm n | bitImm n =>
    exact decode_wordM_immediate rfl n
  | adcAbs a | andAbs a | aslAbs a | bitAbs a | adcZp a | andZp a | aslZp a | bitZp a =>
    exact decode_commandWord _ _ _
  | adcAcc | andAcc | aslAcc | bitAcc => exact decode_commandWord _ _ _
  | bcc d | bcs d | beq d | bne d | bmi d | bpl d | bvc d | bvs d =>
    exact decode_wordB rfl hwf
  | cmp a | cpx a | cpy a => exact decode_commandWord _ _ _
  | clc | clrfZero | cli | cld | clrfBreak | clv | clrfNegative => exact decode_commandWord _ _ _

/-- Settles O6: an accepted word is the word of its own fields, and these carry the command. -/
theorem encodeOfDecodeIsTheWord : Obligations.EncodeOfDecodeIsTheWord := by
  intro cw i h
  obtain ⟨hrsv, hop⟩ := decode_ok_iff.mp h
  obtain ⟨hwf, henc⟩ := decodeOp_carriedBy hop
  refine ⟨hwf, ?_⟩
  simp only [← ignoresOperand_iff]
  rw [henc]
  split
  · rw [← EncodedRow.and_high16 _ _ (cwOpr cw), commandWord_fields hrsv]
  · exact commandWord_fields hrsv

/-! ### The rows of the opcode table (R62) -/

/-- Settles O9: a closed fact about the table. -/
theorem opcodeRowsDoNotOverlap : Obligations.OpcodeRowsDoNotOverlap := by
  unfold Obligations.OpcodeRowsDoNotOverlap
  decide

theorem rowMatches_iff {cw : CommandWord} {row : CommandWord × CommandWord} :
    rowMatches cw row = true ↔ cw &&& row.2 = row.1 := beq_iff_eq

/-- A command's word under its row's mask is the row's match value: the mask leaves out the operand alone. -/
theorem encode_and_mask (i : Instr) : encode i &&& (opcodeRow i).2 = (opcodeRow i).1 := by
  cases i with
  | adcImm n | andImm n | aslImm n | bitImm n => exact EncodedRow.and_high8 _ _ n
  | adcAbs a | andAbs a | aslAbs a | bitAbs a | adcZp a | andZp a | aslZp a | bitZp a =>
    exact EncodedRow.and_high16 _ _ a
  | adcAcc | andAcc | aslAcc | bitAcc => exact EncodedRow.and_high16 _ _ 0#16
  | bcc d | bcs d | beq d | bne d | bmi d | bpl d | bvc d | bvs d =>
    exact EncodedRow.and_high16 _ _ (BitVec.ofInt 16 d)
  | cmp a | cpx a | cpy a => exact EncodedRow.and_high16 _ _ a
  | clc | clrfZero | cli | cld | clrfBreak | clv | clrfNegative => rfl

/-- The mask of an accumulator row keeps exactly what is not the ignored operand field. -/
theorem opcodeRow_mask_of_ignoresOperand {i : Instr} (h : ignoresOperand i = true) :
    (opcodeRow i).2 = 0xFF0000#24 := by
  rcases ignoresOperand_iff.mp h with rfl | rfl | rfl | rfl <;> rfl

/-- Settles O8: the command's own word matches its row, and an accepted word differs from it only in an
operand field that the row's mask leaves out. -/
theorem decodedWordMatchesItsRow : Obligations.DecodedWordMatchesItsRow := by
  intro cw i h
  obtain ⟨-, henc⟩ := encodeOfDecodeIsTheWord cw i h
  have hmask := encode_and_mask i
  rw [rowMatches_iff, ← hmask, henc]
  split
  · next hacc => rw [opcodeRow_mask_of_ignoresOperand (ignoresOperand_iff.mpr hacc), BitVec.and_assoc, BitVec.and_self]
  · rfl

/-- A command of each row, in the table's order. -/
def rowCommands : List Instr :=
  [.adcImm 0, .adcAbs 0, .adcZp 0, .adcAcc, .andImm 0, .andAbs 0, .andZp 0, .andAcc,
   .aslImm 0, .aslAbs 0, .aslZp 0, .aslAcc, .bitImm 0, .bitAbs 0, .bitZp 0, .bitAcc,
   .bcc 0, .bcs 0, .beq 0, .bne 0, .bmi 0, .bpl 0, .bvc 0, .bvs 0, .cmp 0, .cpx 0, .cpy 0,
   .clc, .clrfZero, .cli, .cld, .clrfBreak, .clv, .clrfNegative]

theorem opcodeRows_eq_map : opcodeRows = rowCommands.map opcodeRow := rfl

theorem opcodeRow_mem (i : Instr) : opcodeRow i ∈ opcodeRows := by
  cases i <;> simp [opcodeRow, opcodeRows, opcodeRowsM, opcodeRowsBA, opcodeRowsF]

/-- A word that agrees with a command word above the operand field has its `op` and `mode`, and `rsv` 0. -/
theorem decode_of_and_high16 {cw : CommandWord} {op : BitVec 4} {mode : BitVec 2} {opr : BitVec 16}
    (h : cw &&& 0xFF0000#24 = commandWord op mode opr &&& 0xFF0000#24) : decode cw = decodeOp op mode (cwOpr cw) := by
  have hcw : cw = commandWord op mode (cwOpr cw) := by
    apply BitVec.eq_of_getLsbD_eq
    intro i hi
    have hbit := congrArg (·.getLsbD i) h
    simp only [EncodedRow.and_high16, BitVec.getLsbD_and, getLsbD_commandWord] at hbit
    rw [getLsbD_commandWord, cwOpr, BitVec.getLsbD_extractLsb']
    by_cases hopr : i < 16
    · simp [hopr]
    · interval_cases i <;> simpa using hbit
  rw [hcw, decode_commandWord, cwOpr_commandWord]

/-- A word that agrees with a command word above a literal is the word of a literal. -/
theorem eq_wordM_of_and_high8 {cw : CommandWord} {op : BitVec 4} {mode : Mode} {n : Byte}
    (h : cw &&& 0xFFFF00#24 = wordM op mode (n.setWidth 16) &&& 0xFFFF00#24) :
    cw = wordM op mode ((cw.setWidth 8).setWidth 16) := by
  apply BitVec.eq_of_getLsbD_eq
  intro i hi
  have hbit := congrArg (·.getLsbD i) h
  simp only [wordM, EncodedRow.and_high8, BitVec.getLsbD_and, getLsbD_commandWord] at hbit
  rw [wordM, getLsbD_commandWord, BitVec.getLsbD_setWidth, BitVec.getLsbD_setWidth]
  by_cases hliteral : i < 8
  · simp [hliteral, show i < 16 by omega]
  · interval_cases i <;> simpa using hbit

theorem eq_of_and_allOnes {cw cw' : CommandWord} (h : cw &&& 0xFFFFFF#24 = cw' &&& 0xFFFFFF#24) : cw = cw' :=
  BitVec.and_allOnes.symm.trans (h.trans BitVec.and_allOnes)

/-- A word that matches a command's row is accepted: it is a word of the same row, with its own operand. -/
theorem decode_ok_of_rowMatches {cw : CommandWord} {i : Instr} (h : rowMatches cw (opcodeRow i) = true) :
    ∃ j, decode cw = .ok j := by
  have hsame : cw &&& (opcodeRow i).2 = encode i &&& (opcodeRow i).2 :=
    (rowMatches_iff.mp h).trans (encode_and_mask i).symm
  cases i with
  | adcImm n | andImm n | aslImm n | bitImm n =>
    rw [eq_wordM_of_and_high8 hsame]
    exact ⟨_, decode_wordM_immediate rfl _⟩
  | adcAbs a | andAbs a | aslAbs a | bitAbs a | adcZp a | andZp a | aslZp a | bitZp a =>
    exact ⟨_, decode_of_and_high16 hsame⟩
  | adcAcc | andAcc | aslAcc | bitAcc => exact ⟨_, decode_of_and_high16 hsame⟩
  | bcc d | bcs d | beq d | bne d | bmi d | bpl d | bvc d | bvs d => exact ⟨_, decode_of_and_high16 hsame⟩
  | cmp a | cpx a | cpy a => exact ⟨_, decode_of_and_high16 hsame⟩
  | clc | clrfZero | cli | cld | clrfBreak | clv | clrfNegative =>
    rw [eq_of_and_allOnes hsame]
    exact ⟨_, decodeOfEncodeIsTheCommand _ rfl⟩

/-- Settles O7: the five classes are `rsv` and the refusals of the operation code's format, field by field; the accepted
words match their command's row, and a word of a row is accepted. -/
theorem reservedWordsAreTheFiveClasses : Obligations.ReservedWordsAreTheFiveClasses := by
  refine ⟨fun cw => ?_, fun cw => ⟨fun ⟨i, hi⟩ => ?_, fun ⟨row, hrow, hmatch⟩ => ?_⟩, fun _ _ _ _ => step_reserved⟩
  · have hrsv : cwRsv cw ≠ 0 ↔ cw.toNat / 2 ^ 16 % 4 ≠ 0 := field_ne_zero_iff.trans (by rw [cwRsv_toNat])
    rw [decode_error_iff, decodeOp_error_iff, hrsv, cwOp_toNat, cwMode_toNat, cwOpr_toNat,
      Nat.mod_mod_of_dvd _ (by decide)]
  · exact ⟨opcodeRow i, opcodeRow_mem i, decodedWordMatchesItsRow cw i hi⟩
  · rw [opcodeRows_eq_map] at hrow
    obtain ⟨i, -, rfl⟩ := List.mem_map.mp hrow
    exact decode_ok_of_rowMatches hmatch

end Sys2Proof.Encoding
end

section
/-! Addressing (40_addressing.md R73, R76, R77): the nine commands that read memory fault alike, and an unsupported mode
is a matter of the command alone. -/

namespace Sys2Proof.Addressing

open Sys2Proof.Machine Sys2Proof.Claims

/-! ### The commands that read memory -/

/-- The memory read has one error, at and beyond MEM_LEN (20_memory.md R32). -/
theorem withMemory_fault_iff {a : Addr} {s : State} {write : Byte → State} {e : Fault} :
    withMemory a s write = .fault e ↔ e = .outOfRange a ∧ s.mem.len.val ≤ a.toNat := by
  rw [withMemory_eq]
  split
  · next hin => exact ⟨nofun, fun ⟨_, hout⟩ => absurd hin (Nat.not_lt.mpr hout)⟩
  · next hout =>
    rw [Host.Outcome.fault.injEq, eq_comm]
    exact (and_iff_left (Nat.not_lt.mp hout)).symm

/-- Each reader is the one shape of memory operand (40_addressing.md R77); only what it writes is its own. -/
theorem exec_reader {i : Addr → Instr} (hi : i ∈ readers) (a : Addr) (s : State) :
    ∃ write, exec (i a) s = withMemory a s write := by
  simp only [readers, List.mem_cons, List.not_mem_nil, or_false] at hi
  rcases hi with rfl | rfl | rfl | rfl | rfl | rfl | rfl | rfl | rfl
  · exact ⟨_, exec_adcAbs s a⟩
  · exact ⟨_, exec_adcZp s a⟩
  · exact ⟨_, exec_andAbs s a⟩
  · exact ⟨_, exec_andZp s a⟩
  · exact ⟨_, exec_bitAbs s a⟩
  · exact ⟨_, exec_bitZp s a⟩
  · exact ⟨_, exec_cmp s a⟩
  · exact ⟨_, exec_cpx s a⟩
  · exact ⟨_, exec_cpy s a⟩

/-- Settles O43: the nine share the memory operand, whose one error is OutOfRange. -/
theorem memoryFormsFaultAlike : Obligations.MemoryFormsFaultAlike := by
  intro i hi s a e
  obtain ⟨write, hexec⟩ := exec_reader hi a s
  rw [hexec, withMemory_fault_iff]

/-- Settles O41: where both modes are supported both are the plain memory read; ASL has its error before any read. -/
theorem zeroPageIsAbsolute : Obligations.ZeroPageIsAbsolute := by
  intro s a
  refine ⟨?_, ?_, ?_, exec_aslAbs s a, exec_aslZp s a⟩
  · rw [exec_adcZp, exec_adcAbs]
  · rw [exec_andZp, exec_andAbs]
  · rw [exec_bitZp, exec_bitAbs]

/-! ### The mode check -/

/-- A word written as the sum of its shifted fields is the command word of these fields (30_encoding.md R54). -/
theorem ofNat_eq_commandWord (op : BitVec 4) (mode : BitVec 2) {opr : Nat} (h : opr < 65536) :
    BitVec.ofNat 24 (op.toNat * 2 ^ 20 + mode.toNat * 2 ^ 18 + opr) = commandWord op mode (BitVec.ofNat 16 opr) := by
  have hop := op.isLt; have hmode := mode.isLt
  apply BitVec.eq_of_toNat_eq
  rw [commandWord_toNat, BitVec.toNat_ofNat, BitVec.toNat_ofNat]
  omega

/-- The word of ADC in accumulator mode is ADC A whatever its operand field holds (30_encoding.md R60). -/
theorem decode_adcAcc_word {opr : Nat} (h : opr < 65536) : decode (BitVec.ofNat 24 (0x0C0000 + opr)) = .ok .adcAcc := by
  have hword : BitVec.ofNat 24 (0x0C0000 + opr) = commandWord 0#4 3#2 (BitVec.ofNat 16 opr) :=
    ofNat_eq_commandWord 0#4 3#2 h
  rw [hword, decode_commandWord]
  rfl

/-- The mode is in the command, so the check of it does not see the state (40_addressing.md R76): a command that raises
UnsupportedMode in one state raises it in every state. -/
theorem exec_unsupportedMode_everywhere {i : Instr} {s : State} {m : Mode}
    (h : exec i s = .fault (.unsupportedMode m)) (s' : State) : exec i s' = .fault (.unsupportedMode m) := by
  cases i with
  | adcAcc | andAcc | aslImm n | aslAbs a | aslZp a | bitImm n | bitAcc => exact h
  | adcAbs a | adcZp a | andAbs a | andZp a | bitAbs a | bitZp a | cmp a | cpx a | cpy a =>
    simp only [exec_adcAbs, exec_adcZp, exec_andAbs, exec_andZp, exec_bitAbs, exec_bitZp, exec_cmp, exec_cpx, exec_cpy,
      withMemory_fault_iff, reduceCtorEq, false_and] at h
  | bcc d | bcs d | beq d | bne d | bmi d | bpl d | bvc d | bvs d =>
    cases (branchWhen_eq _ _ _).symm.trans h
  | adcImm n | andImm n | aslAcc => cases h
  | clc | clrfZero | cli | cld | clrfBreak | clv | clrfNegative => cases h

/-- Settles O42: ASL's and ADC's modes are refused with no look at the operand, and a command with an unsupported mode
has that error in every state, so it has no other. -/
theorem modeIsCheckedBeforeMemory : Obligations.ModeIsCheckedBeforeMemory := by
  refine ⟨exec_aslAbs, fun s opr hopr => ⟨.adcAcc, decode_adcAcc_word hopr, exec_adcAcc s⟩, fun i s s' m a h => ?_⟩
  rw [exec_unsupportedMode_everywhere h s']
  nofun

end Sys2Proof.Addressing
end

section
/-! Errors of the block (60_exceptions.md R126, R129): a command reads nothing of the host's side of the port, so an error
of `exec` alone gives the step after it. -/

namespace Sys2Proof.Errors

open Sys2Proof.Machine Sys2Proof.Claims Sys2Proof.Noninterference

theorem unread_setHost (h : HostSide) : Unread (·.setHost h) := by constructor <;> intros <;> rfl

/-- A command raises the same error whatever the host's side holds. -/
theorem exec_setHost_fault {i : Instr} {s : State} {e : Fault} (he : exec i s = .fault e) (h : HostSide) :
    exec i (s.setHost h) = .fault e := by
  rw [(unread_setHost h).exec_comm (fun _ _ => rfl) fun _ _ => rfl, he, mapNext]

/-- An error writes nothing: under a host that goes on, the step takes the command and hands over the status (R129). -/
theorem rejects_iff {i : Instr} {s : State} {e : Fault} : Rejects i s e ↔ exec i s = .fault e := by
  refine ⟨And.left, fun he => ⟨he, fun cw rest replies hd => ?_⟩⟩
  rw [step_command (s := s.setHost ⟨.issue cw :: rest, .goOn, replies⟩) rfl hd]
  exact (congrArg _ (exec_setHost_fault he _)).trans (conclude_fault_goOn rfl e)

/-- A memory operand in range is the byte of its cell (20_memory.md R32). -/
theorem withMemory_inside {s : State} (write : Byte → State) {a : Addr} (h : a.toNat < s.mem.len.val) :
    withMemory a s write = .next (write (s.mem.byteAt a.toNat)) := by
  rw [withMemory_eq, if_pos h]

/-- A command that is the memory shape around `write` reads memory with whatever effect `write` has (20_memory.md R32). -/
theorem readsMemory_of_withMemory {i : Addr → Instr} {write : State → Byte → State}
    {effect : State → Byte → State → Prop} (hexec : ∀ s a, exec (i a) s = withMemory a s (write s))
    (heffect : ∀ s v, effect s v (write s v)) : ReadsMemory i effect := by
  intro s a
  refine ⟨fun hin => ⟨_, (hexec s a).trans (withMemory_inside _ hin), heffect s _⟩, fun hout => rejects_iff.mpr ?_⟩
  rw [hexec, withMemory_eq, if_neg (Nat.not_lt.mpr hout)]

end Sys2Proof.Errors
end

section
/-! The arithmetic of ADC, AND and ASL on bytes (41_alu.md R80 to R85): results and flags as numbers, before any state. -/

namespace Sys2Proof.AluArithmetic

open Sys2Proof.Machine

variable (a v : Byte)

/-! ### ADC -/

/-- Two bytes have one sign when they are in the same half of the range. -/
theorem signBit_eq_iff : signBit a = signBit v ↔ (128 ≤ a.toNat ↔ 128 ≤ v.toNat) := by
  rw [Bool.eq_iff_iff, signBit_iff, signBit_iff]

/-- Overflow in numbers: the operands are in the same half of the range and the result in the other (R80). -/
theorem addOverflow_iff : addOverflow a v = true ↔
    (128 ≤ a.toNat ↔ 128 ≤ v.toNat) ∧ ¬ (128 ≤ a.toNat ↔ 128 ≤ (addResult a v).toNat) := by
  rw [addOverflow, Bool.and_eq_true, beq_iff_eq, bne_iff_ne, ne_eq, signBit_eq_iff, signBit_eq_iff]

/-- Overflow is the signed sum out of the range of a byte (R81 item 3). -/
theorem addOverflow_iff_toInt : addOverflow a v = true ↔ a.toInt + v.toInt < -128 ∨ 127 < a.toInt + v.toInt := by
  have ha := a.isLt
  have hv := v.isLt
  rw [addOverflow_iff, addResult_toNat, BitVec.toInt_eq_toNat_cond, BitVec.toInt_eq_toNat_cond]
  split <;> split <;> omega

/-- Overflow is bit 7 of `(A xor result) and (operand xor result)` (R81 item 3). -/
theorem addOverflow_eq_getLsbD :
    addOverflow a v = ((a ^^^ addResult a v) &&& (v ^^^ addResult a v)).getLsbD 7 := by
  rw [BitVec.getLsbD_and, BitVec.getLsbD_xor, BitVec.getLsbD_xor]
  change addOverflow a v = ((signBit a ^^ signBit (addResult a v)) && (signBit v ^^ signBit (addResult a v)))
  rw [addOverflow]
  cases signBit a <;> cases signBit v <;> cases signBit (addResult a v) <;> rfl

/-- Carry and result make up the exact sum (R80). -/
theorem addCarry_addResult : 256 * (addCarry a v).toNat + (addResult a v).toNat = a.toNat + v.toNat := by
  have ha := a.isLt
  have hv := v.isLt
  rw [addResult_toNat]
  cases hc : addCarry a v with
  | true => rw [addCarry_iff] at hc; simp only [Bool.toNat_true]; omega
  | false => rw [← Bool.not_eq_true, addCarry_iff] at hc; simp only [Bool.toNat_false]; omega

/-- Adding 0 gives the byte itself, with no carry and no overflow (R88). -/
theorem addResult_zero : addResult a 0x00#8 = a := by
  have ha := a.isLt
  apply BitVec.eq_of_toNat_eq
  rw [addResult_toNat, BitVec.toNat_ofNat]
  omega

theorem addCarry_zero : addCarry a 0x00#8 = false := by
  have ha := a.isLt
  rw [← Bool.not_eq_true, addCarry_iff, BitVec.toNat_ofNat]
  omega

theorem addOverflow_zero : addOverflow a 0x00#8 = false := by
  rw [addOverflow, addResult_zero, bne_self_eq_false, Bool.and_false]

/-! ### ASL -/

/-- ASL's result is ADC's of the byte and itself (R85). -/
theorem shiftResult_eq_addResult : shiftResult a = addResult a a := by
  apply BitVec.eq_of_toNat_eq
  rw [shiftResult_toNat, addResult_toNat, Nat.two_mul]

theorem shiftCarry_iff : shiftCarry a = true ↔ 256 ≤ 2 * a.toNat := by
  rw [shiftCarry_eq_signBit, signBit_iff]
  omega

/-- ASL's carry is ADC's of the byte and itself (R85). -/
theorem shiftCarry_eq_addCarry : shiftCarry a = addCarry a a := by
  rw [Bool.eq_iff_iff, shiftCarry_iff, addCarry_iff, Nat.two_mul]

/-- ASL moves every bit up by one; bit 0 becomes 0 (R84). -/
theorem shiftResult_eq_shiftLeft : shiftResult a = a <<< 1 := by
  apply BitVec.eq_of_toNat_eq
  rw [BitVec.toNat_shiftLeft, shiftResult_toNat, Nat.shiftLeft_eq, Nat.mul_comm]

/-- ASL's sign is the old bit 6 (R84). -/
theorem signBit_shiftResult : signBit (shiftResult a) = a.getLsbD 6 := by
  rw [shiftResult_eq_shiftLeft, signBit, BitVec.getLsbD_shiftLeft]
  rfl

theorem getLsbD_zero_shiftResult : (shiftResult a).getLsbD 0 = false := by
  rw [shiftResult_eq_shiftLeft, BitVec.getLsbD_shiftLeft]
  rfl

end Sys2Proof.AluArithmetic
end

section
/-! ADC, AND, ASL (41_alu.md R80 to R88): what the write of each leaves in A and the flags, its effect, and the statements
assembled from these. -/

namespace Sys2Proof.Alu

open Sys2Proof.Machine Sys2Proof.Claims Sys2Proof.Errors Sys2Proof.AluArithmetic Sys2Proof.StateRules Sys2Proof.Addressing

variable (s : State) (v : Byte)

/-! ### What each write leaves -/

@[simp] theorem addInto_a : (addInto s v).a = addResult s.a v := rfl
@[simp] theorem addInto_flags : (addInto s v).flags = s.flags.afterAdd s.a v := rfl
@[simp] theorem andInto_a : (andInto s v).a = s.a &&& v := rfl
@[simp] theorem andInto_flags : (andInto s v).flags = s.flags.afterAnd (s.a &&& v) := rfl
@[simp] theorem shiftInto_a : (shiftInto s v).a = shiftResult v := rfl
@[simp] theorem shiftInto_flags : (shiftInto s v).flags = s.flags.afterShift v := rfl

/-- ADC's write has ADC's effect (R80). -/
theorem addEffect_addInto : AddEffect s v (addInto s v) :=
  ⟨rfl, addResult_toNat s.a v, addCarry_iff s.a v, addOverflow_iff s.a v, signBit_iff _, isZero_iff _⟩

/-- AND's write has AND's effect (R82). -/
theorem andEffect_andInto : AndEffect s v (andInto s v) :=
  ⟨rfl, BitVec.toNat_and s.a v, signBit_iff _, isZero_iff _⟩

/-- ASL's write, from the input A, has ASL's effect (R84). -/
theorem shiftEffect_shiftInto : ShiftEffect s (shiftInto s s.a) :=
  ⟨rfl, shiftResult_toNat s.a, shiftCarry_iff s.a, shiftCarry_eq_signBit s.a, signBit_iff _, signBit_shiftResult s.a,
    isZero_iff _⟩

/-! ### Words -/

/-- A word of format M as a number (30_encoding.md R54). -/
theorem wordM_toNat (op : BitVec 4) (mode : Mode) (opr : BitVec 16) :
    (wordM op mode opr).toNat = op.toNat * 2 ^ 20 + mode.code.toNat * 2 ^ 18 + opr.toNat :=
  commandWord_toNat op mode.code opr

/-- A literal is the low byte of its word, below the operation code alone (30_encoding.md R58). -/
theorem wordM_immediate_toNat (op : BitVec 4) (n : Byte) :
    (wordM op .immediate (n.setWidth 16)).toNat = op.toNat * 2 ^ 20 + n.toNat := by
  have hmode : Mode.immediate.code.toNat = 0 := rfl
  rw [wordM_toNat, BitVec.toNat_setWidth_of_le (by decide), hmode, Nat.zero_mul, Nat.add_zero]

/-- A word of format M in accumulator mode is one command whatever its operand field holds (30_encoding.md R60). -/
theorem decode_accumulator_word {op : BitVec 4} {imm : Byte → Instr} {abs zp : Addr → Instr} {acc : Instr}
    (hop : decodeOp op = decodeFormatM imm abs zp acc) {opr : Nat} (h : opr < 65536) :
    decode (BitVec.ofNat 24 (op.toNat * 2 ^ 20 + 3 * 2 ^ 18 + opr)) = .ok acc := by
  have hword : BitVec.ofNat 24 (op.toNat * 2 ^ 20 + 3 * 2 ^ 18 + opr) = commandWord op 3#2 (BitVec.ofNat 16 opr) :=
    ofNat_eq_commandWord op 3#2 h
  rw [hword, decode_commandWord, hop]
  rfl

/-! ### ADC -/

/-- Settles O18: the three forms are ADC's write of the literal or of the byte read, and accumulator mode is refused. -/
theorem adcAddsWithoutCarryIn : Obligations.AdcAddsWithoutCarryIn := by
  refine ⟨fun s n => ⟨addInto s n, exec_adcImm s n, addEffect_addInto s n⟩,
    readsMemory_of_withMemory exec_adcAbs addEffect_addInto, readsMemory_of_withMemory exec_adcZp addEffect_addInto,
    fun s => rejects_iff.mpr (exec_adcAcc s), fun n => (wordM_immediate_toNat 0#4 n).trans (Nat.zero_add _),
    fun a => ⟨wordM_toNat _ _ _, wordM_toNat _ _ _⟩, fun s ha => ?_⟩
  refine ⟨_, exec_adcImm s _, ?_⟩
  simp only [addInto_a, addInto_flags, Flags.afterAdd_c, Flags.afterAdd_v, Flags.afterAdd_n, Flags.afterAdd_z, ha]
  decide

/-- Settles O20: V is the overflow of the two operands in both of its readings. -/
theorem adcOverflowIsSignedOverflow : Obligations.AdcOverflowIsSignedOverflow := fun s n =>
  ⟨addInto s n, exec_adcImm s n, addOverflow_iff_toInt s.a n, addOverflow_eq_getLsbD s.a n, addCarry_addResult s.a n,
    fun ⟨hn, hz⟩ => not_isZero_and_signBit _ ⟨hz, hn⟩⟩

/-- ADC's write of one byte in two states that agree on A has the same outputs in both (R81 items 1, 2). -/
theorem sameAddOutputs_of_addInto {i : Instr} {s s' : State} {v : Byte} (ha : s.a = s'.a)
    (h : exec i s = .next (addInto s v)) (h' : exec i s' = .next (addInto s' v)) : SameAddOutputs i s s' := by
  refine ⟨_, _, h, h', ?_⟩
  simp [ha]

/-- Settles O19: the literal and the byte read are the one operand in both states. -/
theorem adcIgnoresEveryIncomingFlag : Obligations.AdcIgnoresEveryIncomingFlag := by
  intro s s' ha
  refine ⟨fun n => sameAddOutputs_of_addInto ha (exec_adcImm s n) (exec_adcImm s' n), fun a hin hin' hbyte => ?_⟩
  have hread : withMemory a s (addInto s) = .next (addInto s (s.mem.byteAt a.toNat)) := withMemory_inside _ hin
  have hread' : withMemory a s' (addInto s') = .next (addInto s' (s.mem.byteAt a.toNat)) := by
    rw [withMemory_inside _ hin', hbyte]
  exact ⟨sameAddOutputs_of_addInto ha ((exec_adcAbs s a).trans hread) ((exec_adcAbs s' a).trans hread'),
    sameAddOutputs_of_addInto ha ((exec_adcZp s a).trans hread) ((exec_adcZp s' a).trans hread')⟩

/-! ### AND -/

/-- Settles O21: the three forms are AND's write of the literal or of the byte read, and accumulator mode is refused. -/
theorem andMasksTheAccumulator : Obligations.AndMasksTheAccumulator := by
  refine ⟨fun s n => ⟨andInto s n, exec_andImm s n, andEffect_andInto s n⟩,
    readsMemory_of_withMemory exec_andAbs andEffect_andInto, readsMemory_of_withMemory exec_andZp andEffect_andInto,
    fun s => rejects_iff.mpr (exec_andAcc s), wordM_immediate_toNat 1#4,
    fun a => ⟨wordM_toNat _ _ _, wordM_toNat _ _ _⟩, fun s ha => ?_⟩
  refine ⟨_, exec_andImm s _, ?_⟩
  simp only [andInto_a, andInto_flags, Flags.afterAnd_n, Flags.afterAnd_z, ha]
  decide

/-- The mask is idempotent, and the flags are a function of the result (R83). -/
theorem andInto_andInto : andInto (andInto s v) v = andInto s v := by
  have hmask : s.a &&& v &&& v = s.a &&& v := by rw [BitVec.and_assoc, BitVec.and_self]
  apply State.ext_fields
  case ha => exact hmask
  case hf => simp only [andInto_flags, andInto_a, hmask]; rfl
  all_goals rfl

/-- Settles O22: the mask is idempotent, at most either byte, and its bit 7 is that of both. -/
theorem andTwiceIsAndOnce : Obligations.AndTwiceIsAndOnce := by
  intro s n
  refine ⟨andInto s n, exec_andImm s n, ?_, ?_, ?_, ?_⟩
  · rw [exec_andImm, andInto_andInto]
  · rw [andInto_a, BitVec.toNat_and]; exact Nat.and_le_left
  · rw [andInto_a, BitVec.toNat_and]; exact Nat.and_le_right
  · rw [andInto_flags, Flags.afterAnd_n, signBit, BitVec.getLsbD_and, Bool.and_eq_true]

/-- ADC of 0 keeps A and clears C and V; where N and Z are those of A already, it keeps them too (R88). -/
theorem addInto_zero (hn : s.flags.n = signBit s.a) (hz : s.flags.z = isZero s.a) :
    addInto s 0x00#8 = { s with flags := { s.flags with c := false, v := false } } := by
  apply State.ext_fields
  case ha => exact addResult_zero s.a
  case hf =>
    rw [addInto_flags, Flags.afterAdd, addResult_zero, addCarry_zero, addOverflow_zero, ← hn, ← hz]
  all_goals rfl

/-- Each form of AND that completes leaves N and Z those of A (R82). -/
theorem exec_and_next {i : Instr} {s t : State}
    (hi : (∃ n, i = .andImm n) ∨ (∃ a, i = .andAbs a) ∨ (∃ a, i = .andZp a)) (h : exec i s = .next t) :
    ∃ v, t = andInto s v := by
  rcases hi with ⟨n, rfl⟩ | ⟨a, rfl⟩ | ⟨a, rfl⟩
  · rw [exec_andImm] at h; cases h; exact ⟨n, rfl⟩
  · rw [exec_andAbs] at h; exact ⟨_, (withMemory_next _ _ h).2⟩
  · rw [exec_andZp] at h; exact ⟨_, (withMemory_next _ _ h).2⟩

/-- Settles O23: AND, whatever its form, leaves N and Z those of A, and ADC of 0 keeps such a state but for C and V. -/
theorem addZeroAfterAndKeepsItsConclusions : Obligations.AddZeroAfterAndKeepsItsConclusions := by
  intro i s t hi h
  obtain ⟨v, rfl⟩ := exec_and_next hi h
  exact ⟨(exec_adcImm _ _).trans (congrArg _ (addInto_zero _ rfl rfl)), rfl, rfl⟩

/-! ### ASL -/

/-- Settles O24: ASL's one form is its write of A, and the three other modes are refused. -/
theorem aslDoublesTheAccumulator : Obligations.AslDoublesTheAccumulator := by
  refine ⟨fun s => ⟨_, exec_aslAcc s, shiftEffect_shiftInto s⟩, fun s n => rejects_iff.mpr (exec_aslImm s n),
    fun s a => ⟨rejects_iff.mpr (exec_aslAbs s a), rejects_iff.mpr (exec_aslZp s a)⟩, by decide,
    fun opr hopr => decode_accumulator_word (op := 2#4) rfl hopr, fun s ha => ?_⟩
  refine ⟨_, exec_aslAcc s, ?_⟩
  simp only [shiftInto_a, shiftInto_flags, Flags.afterShift_c, Flags.afterShift_n, Flags.afterShift_z, ha]
  decide

/-- ASL's write of A is ADC's write of A, V kept (R85). -/
theorem shiftInto_eq_addInto :
    shiftInto s s.a = { addInto s s.a with flags := { (addInto s s.a).flags with v := s.flags.v } } := by
  apply State.ext_fields
  case ha => exact shiftResult_eq_addResult s.a
  case hf => rw [shiftInto_flags, Flags.afterShift, shiftResult_eq_addResult, shiftCarry_eq_addCarry]; rfl
  all_goals rfl

/-- Settles O25: the sum of A and itself is exact, and ASL's result and carry are that sum's. -/
theorem aslIsAddingTheAccumulatorToItself : Obligations.AslIsAddingTheAccumulatorToItself := by
  intro s
  refine ⟨_, _, exec_aslAcc s, exec_adcImm s s.a, shiftInto_eq_addInto s, ?_, getLsbD_zero_shiftResult s.a⟩
  rw [shiftInto_eq_addInto, Nat.two_mul]
  exact addCarry_addResult s.a s.a

/-! ### Unsupported pairs -/

/-- A memory form has no error but OutOfRange, so it does not raise UnsupportedMode. -/
theorem withMemory_ne_unsupportedMode (a : Addr) (write : Byte → State) (m : Mode) :
    withMemory a s write ≠ .fault (.unsupportedMode m) := fun h =>
  nomatch (withMemory_fault_iff.mp h).1

/-- Settles O26: five pairs are refused by the mode check, and the seven others complete or read memory. -/
theorem unsupportedPairsOnlyRaise : Obligations.UnsupportedPairsOnlyRaise := by
  intro s n a
  refine ⟨⟨rfl, rejects_iff.mpr (exec_adcAcc s)⟩, ⟨rfl, rejects_iff.mpr (exec_andAcc s)⟩,
    ⟨rfl, rejects_iff.mpr (exec_aslImm s n)⟩, ⟨rfl, rejects_iff.mpr (exec_aslAbs s a)⟩,
    ⟨rfl, rejects_iff.mpr (exec_aslZp s a)⟩, fun i hi m => ?_⟩
  simp only [List.mem_cons, List.not_mem_nil, or_false] at hi
  rcases hi with rfl | rfl | rfl | rfl | rfl | rfl | rfl
  · rw [exec_adcImm]; nofun
  · rw [exec_adcAbs]; exact withMemory_ne_unsupportedMode s a _ m
  · rw [exec_adcZp]; exact withMemory_ne_unsupportedMode s a _ m
  · rw [exec_andImm]; nofun
  · rw [exec_andAbs]; exact withMemory_ne_unsupportedMode s a _ m
  · rw [exec_andZp]; exact withMemory_ne_unsupportedMode s a _ m
  · rw [exec_aslAcc]; nofun

end Sys2Proof.Alu
end

section
/-! The branches (42_branch.md R90 to R99): the word of format B as a number, a branch's row from its predicate and its
operation code, and the complementary pairs from the rows of the two branches. -/

namespace Sys2Proof.Branches

open Sys2Proof.Machine Sys2Proof.Claims Sys2Proof.Addressing

/-! ### The word of format B (30_encoding.md R59) -/

/-- A word of format B as a number: the displacement modulo 65536 below the operation code alone. -/
theorem wordB_toNat (op : BitVec 4) (d : Int) : ((wordB op d).toNat : Int) = op.toNat * 2 ^ 20 + d % 65536 := by
  have hopr : ((BitVec.ofInt 16 d).toNat : Int) = d % 65536 := by
    rw [BitVec.toNat_ofInt]
    omega
  rw [wordB, commandWord_toNat, ← hopr]
  simp

/-- An operand field as two's complement. -/
theorem toInt_ofNat_operand {w : Nat} (h : w < 65536) :
    (BitVec.ofNat 16 w).toInt = if w < 32768 then (w : Int) else (w : Int) - 65536 := by
  rw [BitVec.toInt_eq_toNat_cond, BitVec.toNat_ofNat, Nat.mod_eq_of_lt h]
  split <;> split <;> omega

/-- Every operand field below an operation code of format B is accepted, and read as two's complement. -/
theorem decode_formatB_word {op : BitVec 4} {i : Int → Instr} (hop : decodeOp op = decodeFormatB i) {w : Nat}
    (h : w < 65536) : decode (BitVec.ofNat 24 (op.toNat * 2 ^ 20 + w)) =
      .ok (i (if w < 32768 then (w : Int) else (w : Int) - 65536)) := by
  have hword : BitVec.ofNat 24 (op.toNat * 2 ^ 20 + w) = commandWord op 0#2 (BitVec.ofNat 16 w) := by
    simpa using ofNat_eq_commandWord op 0#2 h
  rw [hword, decode_commandWord, hop, ← toInt_ofNat_operand h]
  exact if_neg (not_not.mpr rfl)

/-! ### The common rule (R90) -/

section
variable {i j : Int → Instr} {taken taken' : Flags → Bool}

/-- A command that is the common rule with a predicate, in format B both ways, has that predicate's row. -/
theorem branchRow_of_branchWhen {op : BitVec 4}
    (hexec : ∀ s d, exec (i d) s = branchWhen (taken s.flags) d s) (hencode : ∀ d, encode (i d) = wordB op d)
    (hdecode : decodeOp op = decodeFormatB i) : BranchRow i taken op.toNat := by
  refine ⟨fun s d htaken => ?_, fun s d hnot => ?_, fun d => ?_, fun w hw => decode_formatB_word hdecode hw⟩
  · refine ⟨s.setPc (branchTarget s.pc d), ?_, rfl, branchTarget_toNat s.pc d⟩
    rw [hexec, htaken, branchWhen_eq, if_pos rfl]
  · rw [hexec, hnot]
    rfl
  · rw [hencode, wordB_toNat]

/-- A worked branch: its flags settle the predicate, and PC is the target where it holds and kept where it fails. -/
theorem branchExample_of_branchWhen {d : Int} {word : CommandWord} {pc pc' : BitVec 16} {flags : Flags → Bool}
    (outcome : Bool) (hexec : ∀ s d, exec (i d) s = branchWhen (taken s.flags) d s)
    (hflags : ∀ f, flags f = true → taken f = outcome) (hword : encode (i d) = word)
    (hpc : (if outcome then branchTarget pc d else pc) = pc') : BranchExample (i d) word pc flags pc' := by
  refine ⟨hword, fun s hs hf => ?_⟩
  rw [hexec, hflags _ hf, branchWhen_eq, hs, hpc]
  exact ⟨_, rfl, rfl⟩

/-- Two branches of opposite predicates: where one is taken the other is not (R99). -/
theorem complementaryPair_of_branchRow {op op' : Nat} (hi : BranchRow i taken op) (hj : BranchRow j taken' op')
    (hopposite : ∀ f, taken' f = !taken f) : ComplementaryPair i j := by
  obtain ⟨hiTaken, hiNot, -, -⟩ := hi
  obtain ⟨hjTaken, hjNot, -, -⟩ := hj
  intro s d
  have hq := hopposite s.flags
  cases hp : taken s.flags with
  | true =>
    obtain ⟨t, hnext, htarget⟩ := hiTaken s d hp
    exact ⟨t, .inl ⟨hnext, hjNot s d (by rw [hq, hp]; rfl)⟩, htarget⟩
  | false =>
    obtain ⟨t, hnext, htarget⟩ := hjTaken s d (by rw [hq, hp]; rfl)
    exact ⟨t, .inr ⟨hiNot s d hp, hnext⟩, htarget⟩

end

/-! ### The eight rows (R91 to R98) -/

theorem branchRow_bcc : BranchRow .bcc (fun f => !f.c) 3 :=
  branchRow_of_branchWhen (op := 3#4) exec_bcc (fun _ => rfl) rfl
theorem branchRow_bcs : BranchRow .bcs (fun f => f.c) 4 :=
  branchRow_of_branchWhen (op := 4#4) exec_bcs (fun _ => rfl) rfl
theorem branchRow_beq : BranchRow .beq (fun f => f.z) 5 :=
  branchRow_of_branchWhen (op := 5#4) exec_beq (fun _ => rfl) rfl
theorem branchRow_bne : BranchRow .bne (fun f => !f.z) 6 :=
  branchRow_of_branchWhen (op := 6#4) exec_bne (fun _ => rfl) rfl
theorem branchRow_bmi : BranchRow .bmi (fun f => f.n) 7 :=
  branchRow_of_branchWhen (op := 7#4) exec_bmi (fun _ => rfl) rfl
theorem branchRow_bpl : BranchRow .bpl (fun f => !f.n) 8 :=
  branchRow_of_branchWhen (op := 8#4) exec_bpl (fun _ => rfl) rfl
theorem branchRow_bvc : BranchRow .bvc (fun f => !f.v) 9 :=
  branchRow_of_branchWhen (op := 9#4) exec_bvc (fun _ => rfl) rfl
theorem branchRow_bvs : BranchRow .bvs (fun f => f.v) 10 :=
  branchRow_of_branchWhen (op := 10#4) exec_bvs (fun _ => rfl) rfl

/-- Settles O27: each row is the common rule with the branch's predicate and code, and a worked example is that rule at
its displacement and PC. -/
theorem branchesAddTheDisplacement : Obligations.BranchesAddTheDisplacement := by
  refine ⟨branchRow_bcc, branchRow_bcs, branchRow_beq, branchRow_bne, branchRow_bmi, branchRow_bpl, branchRow_bvc,
    branchRow_bvs, ?_, ?_, ?_, ?_, ?_, ?_, ?_, ?_, ?_, ?_⟩
  · exact branchExample_of_branchWhen true exec_bcc (fun _ => id) rfl rfl
  · exact branchExample_of_branchWhen false exec_bcc (fun _ hc => congrArg not hc) rfl rfl
  · exact branchExample_of_branchWhen true exec_bcs (fun _ => id) rfl rfl
  · exact branchExample_of_branchWhen false exec_bcs (fun _ hc => by simpa using hc) rfl rfl
  · exact branchExample_of_branchWhen true exec_beq (fun _ => id) rfl rfl
  · exact branchExample_of_branchWhen true exec_bne (fun _ => id) rfl rfl
  · exact branchExample_of_branchWhen true exec_bmi (fun _ => id) rfl rfl
  · exact branchExample_of_branchWhen true exec_bpl (fun _ => id) rfl rfl
  · exact branchExample_of_branchWhen true exec_bvc (fun _ => id) rfl rfl
  · exact branchExample_of_branchWhen true exec_bvs (fun _ => id) rfl rfl

/-- Settles O28: the two branches of a pair test one flag, one for true and one for false. -/
theorem branchPairsAreComplementary : Obligations.BranchPairsAreComplementary :=
  ⟨complementaryPair_of_branchRow branchRow_bcc branchRow_bcs fun _ => (Bool.not_not _).symm,
    complementaryPair_of_branchRow branchRow_beq branchRow_bne fun _ => rfl,
    complementaryPair_of_branchRow branchRow_bmi branchRow_bpl fun _ => rfl,
    complementaryPair_of_branchRow branchRow_bvc branchRow_bvs fun _ => (Bool.not_not _).symm⟩

end Sys2Proof.Branches
end

section
/-! BIT, CMP, CPX, CPY (43_bit_compare.md R100 to R106): what BIT and a compare leave in the flags, as numbers, and the
statements assembled from these. -/

namespace Sys2Proof.BitCompare

open Sys2Proof.Machine Sys2Proof.Claims Sys2Proof.Errors Sys2Proof.Alu

variable (s : State) (reg m : Byte)

/-! ### BIT -/

@[simp] theorem testInto_flags : (testInto s m).flags = s.flags.afterBit s.a m := rfl

/-- A bit of a byte as a number. -/
theorem getLsbD_iff_div_mod (i : Nat) : m.getLsbD i = true ↔ m.toNat / 2 ^ i % 2 = 1 := by
  rw [← BitVec.testBit_toNat, Nat.testBit_eq_decide_div_mod_eq, decide_eq_true_iff]

/-- BIT's Z is the mask of the two bytes as a number (R100). -/
theorem isZero_and_iff : isZero (reg &&& m) = true ↔ reg.toNat &&& m.toNat = 0 := by
  rw [isZero_iff, BitVec.toNat_and]

/-- BIT's write has BIT's effect (R100). -/
theorem bitEffect_testInto : BitEffect s m (testInto s m) :=
  ⟨rfl, isZero_and_iff s.a m, getLsbD_iff_div_mod m 7, getLsbD_iff_div_mod m 6⟩

/-- Settles O30: the two forms are BIT's write of the byte read, and the two other modes are refused. -/
theorem bitTestsTheMemoryByte : Obligations.BitTestsTheMemoryByte := by
  refine ⟨readsMemory_of_withMemory exec_bitAbs bitEffect_testInto,
    readsMemory_of_withMemory exec_bitZp bitEffect_testInto,
    fun s n => rejects_iff.mpr (exec_bitImm s n), fun s => rejects_iff.mpr (exec_bitAcc s),
    fun a => ⟨wordM_toNat _ _ _, wordM_toNat _ _ _⟩, fun s ha hin hm => ?_⟩
  refine ⟨_, (exec_bitAbs s _).trans (withMemory_inside _ hin), ha, ?_⟩
  have hbyte : s.mem.byteAt (0x0010#16).toNat = 0xC1#8 := hm
  simp only [testInto_flags, Flags.afterBit_z, Flags.afterBit_n, Flags.afterBit_v, ha, hbyte]
  decide

/-! ### Compare -/

@[simp] theorem compareInto_flags : (compareInto s reg m).flags = s.flags.afterCompare reg m := rfl

/-- A number is above, equal to or below 0, and only one of these (R102). -/
theorem count_true_of_sign (d : Int) : [decide (0 < d), decide (d = 0), decide (d < 0)].count true = 1 := by
  rcases lt_trichotomy d 0 with h | h | h
  · simp [h, h.ne, h.le]
  · simp [h]
  · simp [h, h.ne', h.le]

/-- A compare's write of a register has a compare's effect for that register (R102). -/
theorem compareEffect_compareInto (r : State → Byte) (s : State) (m : Byte) :
    CompareEffect r s m (compareInto s (r s) m) :=
  ⟨rfl, decide_eq_true_iff, decide_eq_true_iff, decide_eq_true_iff, count_true_of_sign (compareDiff (r s) m)⟩

/-- A word of format A as a number: the address below the operation code alone (30_encoding.md R54). -/
theorem wordA_toNat (op : BitVec 4) (a : Addr) : (wordA op a).toNat = op.toNat * 2 ^ 20 + a.toNat := by
  rw [wordA, commandWord_toNat, BitVec.toNat_zero, Nat.zero_mul, Nat.add_zero]

/-- Settles O31: each of the three is a compare's write of its own register with the byte read. -/
theorem comparesOrderTheRegisterAndTheByte : Obligations.ComparesOrderTheRegisterAndTheByte := by
  refine ⟨readsMemory_of_withMemory exec_cmp (compareEffect_compareInto (·.a)),
    readsMemory_of_withMemory exec_cpx (compareEffect_compareInto (·.x)),
    readsMemory_of_withMemory exec_cpy (compareEffect_compareInto (·.y)),
    fun a => ⟨wordA_toNat _ a, wordA_toNat _ a, wordA_toNat _ a⟩, fun s ha hin hm => ?_⟩
  refine ⟨_, (exec_cmp s _).trans (withMemory_inside _ hin), ?_⟩
  have hbyte : s.mem.byteAt (0x0010#16).toNat = 0x02#8 := hm
  simp only [compareInto_flags, Flags.afterCompare_c, Flags.afterCompare_z, Flags.afterCompare_n, ha, hbyte]
  decide

/-- On equality the difference is 0: neither carry nor negative (R106 item 1). -/
theorem afterCompare_self (fl : Flags) :
    (fl.afterCompare m m).c = false ∧ (fl.afterCompare m m).z = true ∧ (fl.afterCompare m m).n = false := by
  simp [compareDiff]

/-- Bit 7 of the wrapped difference in terms of the exact one: set from 128 up, and from -128 to -1, which wrap to 128 up
(R106). -/
theorem getLsbD_seven_sub_iff : (reg - m).getLsbD 7 = true ↔
    128 ≤ compareDiff reg m ∨ -128 ≤ compareDiff reg m ∧ compareDiff reg m < 0 := by
  have hr := reg.isLt
  have hm := m.isLt
  rw [getLsbD_iff_div_mod, BitVec.toNat_sub, compareDiff]
  omega

/-- The sign of the exact difference is not the wrapped bit where the difference is no signed byte (R106 item 2). -/
theorem neg_ne_getLsbD_seven_sub_iff : decide (compareDiff reg m < 0) ≠ (reg - m).getLsbD 7 ↔
    128 < (compareDiff reg m).natAbs ∨ compareDiff reg m = 128 := by
  rw [ne_eq, Bool.eq_iff_iff, decide_eq_true_iff, getLsbD_seven_sub_iff]
  omega

/-- Settles O32: equality makes the difference 0, and the wrapped bit is its sign but for differences no signed byte
holds. -/
theorem compareNegativeIsNotTheWrappedBit : Obligations.CompareNegativeIsNotTheWrappedBit := by
  intro s a hin
  refine ⟨_, (exec_cmp s a).trans (withMemory_inside _ hin), fun heq => ?_, neg_ne_getLsbD_seven_sub_iff s.a _⟩
  rw [compareInto_flags, ← heq]
  exact afterCompare_self s.a s.flags

end Sys2Proof.BitCompare
end

section
/-! The clears (44_clear_flag.md R110 to R116): the state a clear leaves, which commands are clears of which flag, and
the one error of the family. -/

namespace Sys2Proof.ClearFlags

open Sys2Proof.Machine Sys2Proof.Claims Sys2Proof.Errors Sys2Proof.Branches

/-! ### The state a clear leaves -/

/-- Writing one flag twice leaves the second value. -/
theorem put_put_self (fl : Flags) (f : Flag) (b c : Bool) : (fl.put f b).put f c = fl.put f c := by
  cases f <;> rfl

/-- One value written into two flags: the order is all one, as the flags are independent booleans (10_state.md R15,
R16). -/
theorem put_put_comm (fl : Flags) (f g : Flag) (b : Bool) : (fl.put f b).put g b = (fl.put g b).put f b := by
  cases f <;> cases g <;> rfl

/-- The state with one flag false and every other part as before (44_clear_flag.md R114). -/
def cleared (f : Flag) (s : State) : State := s.setFlags (s.flags.put f false)

/-- Clearing a flag twice is clearing it once (R116). -/
theorem cleared_cleared_self (f : Flag) (s : State) : cleared f (cleared f s) = cleared f s :=
  congrArg s.setFlags (put_put_self s.flags f false false)

/-- Clears of any two flags, equal ones included, commute (R116). -/
theorem cleared_cleared_comm (f g : Flag) (s : State) : cleared g (cleared f s) = cleared f (cleared g s) :=
  congrArg s.setFlags (put_put_comm s.flags f g false)

/-! ### The generic clear -/

/-- On a flag it accepts, the generic clear completes with that flag cleared. -/
theorem clearFlag_of_clearable {f : Flag} (h : clearable f = true) (s : State) :
    clearFlag f s = .next (cleared f s) := by
  rw [clearFlag_eq, if_pos h, cleared]

/-- On a flag it does not accept, the generic clear raises in every state. -/
theorem clearFlag_of_not_clearable {f : Flag} (h : clearable f = false) (s : State) :
    clearFlag f s = .fault (.unsupportedClearFlag f) := by
  rw [clearFlag_eq, if_neg (ne_true_of_eq_false h)]

/-- The generic clear has one error, UnsupportedClearFlag with its own flag. -/
theorem clearFlag_fault {f : Flag} {s : State} {e : Fault} (h : clearFlag f s = .fault e) :
    e = .unsupportedClearFlag f := by
  cases hf : clearable f with
  | true =>
    rw [clearFlag_of_clearable hf] at h
    nomatch h
  | false =>
    rw [clearFlag_of_not_clearable hf] at h
    exact (Host.Outcome.fault.inj h).symm

/-! ### The seven commands of the family -/

/-- The seven commands are the generic clear of some flag. -/
theorem exec_eq_clearFlag {i : Instr}
    (hi : i ∈ [Instr.clc, .clrfZero, .cli, .cld, .clrfBreak, .clv, .clrfNegative]) :
    ∃ f, ∀ s, exec i s = clearFlag f s := by
  simp only [List.mem_cons, List.not_mem_nil, or_false] at hi
  rcases hi with rfl | rfl | rfl | rfl | rfl | rfl | rfl
  · exact ⟨_, exec_clc⟩
  · exact ⟨_, exec_clrfZero⟩
  · exact ⟨_, exec_cli⟩
  · exact ⟨_, exec_cld⟩
  · exact ⟨_, exec_clrfBreak⟩
  · exact ⟨_, exec_clv⟩
  · exact ⟨_, exec_clrfNegative⟩

/-- CLC completes with C cleared (R110). -/
theorem exec_clc_next (s : State) : exec .clc s = .next (cleared .carry s) :=
  (exec_clc s).trans (clearFlag_of_clearable rfl s)

/-- CLD completes with D cleared (R111). -/
theorem exec_cld_next (s : State) : exec .cld s = .next (cleared .decimal s) :=
  (exec_cld s).trans (clearFlag_of_clearable rfl s)

/-- CLI completes with I cleared (R112). -/
theorem exec_cli_next (s : State) : exec .cli s = .next (cleared .interruptDisable s) :=
  (exec_cli s).trans (clearFlag_of_clearable rfl s)

/-- CLV completes with V cleared (R113). -/
theorem exec_clv_next (s : State) : exec .clv s = .next (cleared .overflow s) :=
  (exec_clv s).trans (clearFlag_of_clearable rfl s)

/-- Each of the four clears completes in every state, with one flag cleared. -/
theorem exec_of_mem_clears {i : Instr} (hi : i ∈ clears) : ∃ f, ∀ s, exec i s = .next (cleared f s) := by
  simp only [clears, List.mem_cons, List.not_mem_nil, or_false] at hi
  rcases hi with rfl | rfl | rfl | rfl
  · exact ⟨_, exec_clc_next⟩
  · exact ⟨_, exec_cli_next⟩
  · exact ⟨_, exec_cld_next⟩
  · exact ⟨_, exec_clv_next⟩

/-! ### The statements -/

/-- Settles O34: each clear leaves its flag's cleared state, and BVS tests the flag that CLV has just cleared. -/
theorem clearsSetTheirOneFlagFalse : Obligations.ClearsSetTheirOneFlagFalse := by
  refine ⟨fun s => ⟨exec_clc_next s, exec_cld_next s, exec_cli_next s, exec_clv_next s⟩,
    by decide, by decide, by decide, by decide, fun s _ hpc => ?_⟩
  obtain ⟨-, bvs_not_taken, -, -⟩ := branchRow_bvs
  exact ⟨cleared .overflow s, exec_clv_next s, rfl, bvs_not_taken _ 16 rfl, hpc⟩

/-- Settles O35: the generic clear accepts four flags and raises on the three others, whatever the state. -/
theorem unclearableFlagsAlwaysRaise : Obligations.UnclearableFlagsAlwaysRaise := by
  refine ⟨fun s => ⟨?_, ?_, ?_⟩, fun s => ⟨exec_clc_next s, exec_cld_next s, exec_cli_next s, exec_clv_next s⟩,
    by decide, by decide, by decide, by decide⟩
  · exact rejects_iff.mpr ((exec_clrfZero s).trans (clearFlag_of_not_clearable rfl s))
  · exact rejects_iff.mpr ((exec_clrfBreak s).trans (clearFlag_of_not_clearable rfl s))
  · exact rejects_iff.mpr ((exec_clrfNegative s).trans (clearFlag_of_not_clearable rfl s))

/-- Settles O36: a clear's state is idempotent and commutes, and the family's one error is UnsupportedClearFlag. -/
theorem clearsAreIdempotentAndCommute : Obligations.ClearsAreIdempotentAndCommute := by
  refine ⟨fun i hi s => ?_, fun i hi j hj s => ?_, fun i hi s => ?_⟩
  · obtain ⟨f, hf⟩ := exec_of_mem_clears hi
    refine ⟨cleared f s, hf s, ?_⟩
    rw [hf, cleared_cleared_self]
  · obtain ⟨f, hf⟩ := exec_of_mem_clears hi
    obtain ⟨g, hg⟩ := exec_of_mem_clears hj
    refine ⟨cleared f s, cleared g s, cleared g (cleared f s), hf s, hg _, hg s, ?_⟩
    rw [hf, cleared_cleared_comm]
  · obtain ⟨f, hf⟩ := exec_eq_clearFlag hi
    rw [hf]
    exact ⟨fun _ h => (nomatch clearFlag_fault h), fun _ h => (nomatch clearFlag_fault h)⟩

end Sys2Proof.ClearFlags
end

section
/-! Errors and statuses (60_exceptions.md R120 to R129): the table of which command raises what, what an error leaves,
and the status it is handed over as. -/

namespace Sys2Proof.Exceptions

open Sys2Proof.Machine Sys2Proof.Claims Sys2Proof.Addressing Sys2Proof.Errors

/-- Settles O16: code and payload are read off each status, and each error becomes the status of its own name. -/
theorem statusCodesAndPayloads : Obligations.StatusCodesAndPayloads :=
  ⟨rfl, rfl, fun _ => ⟨rfl, rfl, rfl⟩, fun _ => ⟨rfl, rfl, rfl⟩, fun _ => ⟨rfl, rfl, rfl⟩⟩

/-! ### The table -/

/-- The nine readers share one row of the table: OutOfRange at and beyond MEM_LEN (R124). -/
theorem errorOf_reader {i : Addr → Instr} (hi : i ∈ readers) (len : Nat) (a : Addr) :
    errorOf len (i a) = if len ≤ a.toNat then some (.outOfRange a) else none := by
  simp only [readers, List.mem_cons, List.not_mem_nil, or_false] at hi
  rcases hi with rfl | rfl | rfl | rfl | rfl | rfl | rfl | rfl | rfl <;> rfl

/-- A command ends as the table says: with the error of its row, or completed where the row has none (R124). -/
def EndsByTable (i : Instr) (s : State) : Prop :=
  (∃ e, errorOf s.mem.len.val i = some e ∧ exec i s = .fault e) ∨
    (errorOf s.mem.len.val i = none ∧ ∃ t, exec i s = .next t)

/-- A reader ends as the table says, on either side of MEM_LEN. -/
theorem endsByTable_reader {i : Addr → Instr} (hi : i ∈ readers) (a : Addr) (s : State) : EndsByTable (i a) s := by
  obtain ⟨write, hexec⟩ := exec_reader hi a s
  rcases Nat.lt_or_ge a.toNat s.mem.len.val with hin | hout
  · refine .inr ⟨?_, _, hexec.trans (withMemory_inside write hin)⟩
    rw [errorOf_reader hi, if_neg (Nat.not_le.mpr hin)]
  · refine .inl ⟨.outOfRange a, ?_, hexec.trans (withMemory_fault_iff.mpr ⟨rfl, hout⟩)⟩
    rw [errorOf_reader hi, if_pos hout]

/-- Every command ends as the table says; only the readers' rows look at the state. -/
theorem endsByTable (i : Instr) (s : State) : EndsByTable i s := by
  cases i with
  | adcAbs a | adcZp a | andAbs a | andZp a | bitAbs a | bitZp a | cmp a | cpx a | cpy a =>
    exact endsByTable_reader (by simp [readers]) a s
  | adcAcc | andAcc | aslImm n | aslAbs a | aslZp a | bitImm n | bitAcc => exact .inl ⟨_, rfl, rfl⟩
  | clrfZero | clrfBreak | clrfNegative => exact .inl ⟨_, rfl, rfl⟩
  | adcImm n | andImm n | aslAcc => exact .inr ⟨rfl, _, rfl⟩
  | bcc d | bcs d | beq d | bne d | bmi d | bpl d | bvc d | bvs d => exact .inr ⟨rfl, _, rfl⟩
  | clc | cli | cld | clv => exact .inr ⟨rfl, _, rfl⟩

/-- Settles O44: a command ends in one way, and the table says in which. -/
theorem errorsAreExactlyTheTable : Obligations.ErrorsAreExactlyTheTable := by
  intro i s
  rcases endsByTable i s with ⟨e, htable, hexec⟩ | ⟨htable, t, hexec⟩
  · simp [htable, hexec]
  · simp [htable, hexec]

/-- The block refuses no command: a refusal is the decoder's or the host's (R127). -/
theorem exec_ne_refused (i : Instr) (s : State) (r : Refusal) : exec i s ≠ .refused r := by
  obtain ⟨-, hrefused, -⟩ := errorsAreExactlyTheTable i s
  exact hrefused r

/-! ### What an error leaves -/

/-- Settles O46: the error is the same with the move taken, and a host that goes on is handed its status. -/
theorem errorsLeaveTheStateUnchanged : Obligations.ErrorsLeaveTheStateUnchanged := by
  intro s cw rest i e hm hd hp he
  have hfault : exec i (s.setMoves rest) = .fault e := exec_setHost_fault he _
  refine ⟨(s.setMoves rest).reply e.status, ?_, rfl, rfl, rfl⟩
  rw [step_command hm hd, hfault, conclude_fault_goOn (by rwa [State.setMoves_host_onError])]

end Sys2Proof.Exceptions
end

section
/-! Runs that do not stop (60_exceptions.md R129, 70_reset_and_hazards.md R150): the induction over the steps of a run,
and a host that goes on after errors as its first use. -/

namespace Sys2Proof.Runs

open Sys2Proof.Machine Sys2Proof.Claims Sys2Proof.Port Sys2Proof.MemoryRules Sys2Proof.Exceptions

/-! ### The induction over a run -/

/-- A run goes on from the next state of its first step. -/
theorem run_succ_of_step {s t : State} (h : step s = .next t) (k : Nat) :
    Host.Core.run core (k + 1) s = Host.Core.run core k t := by
  have hcore : core.step s = .next t := h
  simp only [Host.Core.run, hcore]

/-- States from which a step is made, and is made to such a state again, are states from which no run stops. -/
theorem runsSafely_of_invariant {P : State → Prop} (progress : ∀ s, P s → ∃ t, step s = .next t)
    (keeps : ∀ s t, P s → step s = .next t → P t) {s : State} (hs : P s) (k : Nat) : runsSafely k s := by
  induction k generalizing s with
  | zero => exact ⟨s, rfl⟩
  | succ k ih =>
    obtain ⟨t, hstep⟩ := progress s hs
    obtain ⟨u, hrun⟩ := ih (keeps s t hs hstep)
    exact ⟨u, (run_succ_of_step hstep k).trans hrun⟩

/-! ### Moves that are taken -/

/-- A command word is taken exactly when it decodes (60_exceptions.md R127). -/
theorem takenMove_issue_iff {len : Nat} {cw : CommandWord} :
    takenMove len (.issue cw) = true ↔ ∃ i, decode cw = .ok i := by
  cases hd : decode cw <;> simp [takenMove, hd]

/-- A host write that is taken is made: its field exists (20_memory.md R44). -/
theorem hostWrite_of_takenMove {w : HostWrite} {s : State} (h : takenMove s.mem.len.val (.write w) = true) :
    ∃ t, hostWrite w s = .next t := by
  cases w with
  | cell a v => exact ⟨_, hostWrite_cell_inside (of_decide_eq_true h)⟩
  | accumulator v | indexX v | indexY v | programCounter v | stackPointer v | flag f v => exact ⟨_, rfl⟩

/-- Under a host that goes on, whatever is no refusal is concluded with a next state (60_exceptions.md R129). -/
theorem conclude_goOn_next {s : State} {o : Host.Outcome State Fault Refusal} (hp : s.host.onError = .goOn)
    (ho : ∀ r, o ≠ .refused r) : ∃ t, conclude s o = .next t := by
  cases o with
  | next t => exact ⟨_, conclude_next s t⟩
  | fault e => exact ⟨_, conclude_fault_goOn hp e⟩
  | refused r => exact absurd rfl (ho r)

/-! ### A host that goes on after errors -/

/-- The host goes on after errors, and each of its remaining moves is taken. -/
def GoesOn (s : State) : Prop := s.host.onError = .goOn ∧ s.host.moves.all (takenMove s.mem.len.val) = true

/-- A host that goes on makes its next move. -/
theorem GoesOn.progress {s : State} (h : GoesOn s) : ∃ t, step s = .next t := by
  obtain ⟨hp, hall⟩ := h
  rcases hm : s.host.moves with _ | ⟨m, rest⟩
  · exact ⟨s, step_idle hm⟩
  · rw [hm, List.all_cons, Bool.and_eq_true] at hall
    obtain ⟨htaken, -⟩ := hall
    cases m with
    | write w =>
      rw [step_write hm]
      exact hostWrite_of_takenMove htaken
    | issue cw =>
      obtain ⟨i, hd⟩ := takenMove_issue_iff.mp htaken
      rw [step_command hm hd]
      exact conclude_goOn_next hp (exec_ne_refused i _)

/-- A step keeps the policy and MEM_LEN and only takes a move off the list, so the host goes on after it. -/
theorem GoesOn.keeps {s t : State} (h : GoesOn s) (hstep : step s = .next t) : GoesOn t := by
  obtain ⟨hp, hall⟩ := h
  obtain ⟨hmoves, hpolicy⟩ := stepsTakeTheMovesInOrder s t hstep
  have hlen := noStepChangesMemoryLength s t hstep
  refine ⟨hpolicy.trans hp, ?_⟩
  rw [hmoves, hlen, List.all_eq_true]
  exact fun m hm => List.all_eq_true.mp hall m (List.mem_of_mem_tail hm)

/-- Settles O51, by the induction over the run with the premise itself as the invariant. -/
theorem hostThatGoesOnIsNeverStopped : Obligations.HostThatGoesOnIsNeverStopped := by
  intro s hp hall k
  exact runsSafely_of_invariant (P := GoesOn) (fun _ => GoesOn.progress) (fun _ _ => GoesOn.keeps) ⟨hp, hall⟩ k

end Sys2Proof.Runs
end

section
/-! Reset and hazards (70_reset_and_hazards.md sections 1, 2 and 4): the state the model starts from, the commands that
complete, the three ways an issued word ends, and a host that keeps to R148. -/

namespace Sys2Proof.Hazards

open Sys2Proof.Machine Sys2Proof.Claims Sys2Proof.Frame Sys2Proof.Port Sys2Proof.MemoryRules Sys2Proof.Errors
  Sys2Proof.Exceptions Sys2Proof.Runs

/-- Settles O1: memory after reset is canonical, its length is bounded by its type, and with no move a step is idle. -/
theorem resetIsAHostChosenState : Obligations.ResetIsAHostChosenState :=
  ⟨reset_mem_wf, Nat.le_of_lt_succ State.reset.mem.len.isLt, rfl, step_idle rfl⟩

/-! ### Allowed commands -/

/-- All nine readers are supported, so a read in range is all that is asked of them (R147, R148). -/
theorem allowed_reader {i : Addr → Instr} (hi : i ∈ readers) (len : Nat) (a : Addr) :
    allowed len (i a) = decide (a.toNat < len) := by
  simp only [readers, List.mem_cons, List.not_mem_nil, or_false] at hi
  rcases hi with rfl | rfl | rfl | rfl | rfl | rfl | rfl | rfl | rfl <;> rfl

/-- What R148 allows is what has no error in the table of 60_exceptions.md R124; only a reader's row looks at MEM_LEN. -/
theorem allowed_iff_errorOf_eq_none (len : Nat) (i : Instr) : allowed len i = true ↔ errorOf len i = none := by
  cases i with
  | adcAbs a | adcZp a | andAbs a | andZp a | bitAbs a | bitZp a | cmp a | cpx a | cpy a =>
    rw [allowed_reader (by simp [readers]), errorOf_reader (by simp [readers])]
    simp
  | adcAcc | andAcc | aslImm n | aslAbs a | aslZp a | bitImm n | bitAcc => exact iff_of_false nofun nofun
  | clrfZero | clrfBreak | clrfNegative => exact iff_of_false nofun nofun
  | adcImm n | andImm n | aslAcc => exact iff_of_true rfl rfl
  | bcc d | bcs d | beq d | bne d | bmi d | bpl d | bvc d | bvs d => exact iff_of_true rfl rfl
  | clc | cli | cld | clv => exact iff_of_true rfl rfl

/-- Settles O45: a command completes where the table has no error for it, and that is where it is allowed. -/
theorem allowedCommandsComplete : Obligations.AllowedCommandsComplete := by
  intro i s
  obtain ⟨-, -, hcompletes⟩ := errorsAreExactlyTheTable i s
  rw [hcompletes, allowed_iff_errorOf_eq_none]

/-! ### The three ways an issued word ends -/

/-- A reserved word is refused by the decoder (60_exceptions.md R127). -/
theorem issue_reserved {cw : CommandWord} {why : Reserved} (h : decode cw = .error why) (s : State) :
    issue cw s = .refused (.reservedWord why) := by
  simp only [issue, h]

/-- An accepted word is its command, executed whole and concluded (60_exceptions.md R125). -/
theorem issue_command {cw : CommandWord} {i : Instr} (h : decode cw = .ok i) (s : State) :
    issue cw s = conclude s (exec i s) := by
  simp only [issue, h]

/-- An error is concluded by the host's policy alone (60_exceptions.md R129). -/
theorem conclude_fault (s : State) (e : Fault) :
    conclude s (.fault e) = if s.host.onError = .stop then .fault e else .next (s.reply e.status) := by
  cases hp : s.host.onError with
  | stop => rw [conclude_fault_stop hp, if_pos rfl]
  | goOn => rw [conclude_fault_goOn hp, if_neg nofun]

/-- Settles O15: the decoder refuses the word, or its command ends as the table of errors says, completed or with an
error, and the port concludes it. -/
theorem everyIssuedWordEndsOneWay : Obligations.EveryIssuedWordEndsOneWay := by
  intro s cw
  cases hd : decode cw with
  | error why => exact .inl ⟨why, rfl, issue_reserved hd s⟩
  | ok i =>
    rcases endsByTable i s with ⟨e, -, he⟩ | ⟨-, t, ht⟩
    · exact .inr (.inr ⟨i, e, rfl, rejects_iff.mpr he, by rw [issue_command hd, he, conclude_fault]⟩)
    · exact .inr (.inl ⟨i, t, rfl, ht, by rw [issue_command hd, ht, conclude_next]⟩)

/-! ### A host that keeps to the spec -/

/-- A behaved command word decodes to an allowed command (R148). -/
theorem behavedMove_issue_iff {len : Nat} {cw : CommandWord} :
    behavedMove len (.issue cw) = true ↔ ∃ i, decode cw = .ok i ∧ allowed len i = true := by
  cases hd : decode cw <;> simp [behavedMove, hd]

/-- Of a host write the spec asks only that its field exists, so a behaved write is one that is taken (R144). -/
theorem behavedMove_write (len : Nat) (w : HostWrite) : behavedMove len (.write w) = takenMove len (.write w) := by
  cases w <;> rfl

/-- On the way from `s` to `t` at most `k` statuses were handed over, all of them Ok (60_exceptions.md R123). -/
def OnlyOkReplies (k : Nat) (s t : State) : Prop :=
  ∃ n ≤ k, t.host.replies = List.replicate n Status.ok ++ s.host.replies

theorem onlyOkReplies_of_replies_eq {k : Nat} {s t : State} (h : t.host.replies = s.host.replies) :
    OnlyOkReplies k s t := ⟨0, Nat.zero_le k, h⟩

theorem OnlyOkReplies.trans {j k : Nat} {s t u : State} (hst : OnlyOkReplies j s t) (htu : OnlyOkReplies k t u) :
    OnlyOkReplies (k + j) s u := by
  obtain ⟨m, hm, hs⟩ := hst
  obtain ⟨n, hn, ht⟩ := htu
  refine ⟨n + m, Nat.add_le_add hn hm, ?_⟩
  rw [ht, hs, ← List.append_assoc, List.replicate_append_replicate]

/-- A behaved host makes its next move; its writes are handed no status, and its commands complete with Ok. -/
theorem step_of_behaved {s : State} (h : s.behaved = true) : ∃ t, step s = .next t ∧ OnlyOkReplies 1 s t := by
  rcases hm : s.host.moves with _ | ⟨m, rest⟩
  · exact ⟨s, step_idle hm, onlyOkReplies_of_replies_eq rfl⟩
  · rw [State.behaved, hm, List.all_cons, Bool.and_eq_true] at h
    obtain ⟨hmove, -⟩ := h
    cases m with
    | write w =>
      rw [behavedMove_write] at hmove
      obtain ⟨t, ht⟩ := hostWrite_of_takenMove (s := s.setMoves rest) hmove
      obtain ⟨hhost, -⟩ := hostWrite_next ht
      refine ⟨t, (step_write hm).trans ht, onlyOkReplies_of_replies_eq ?_⟩
      rw [hhost, State.setMoves_host_replies]
    | issue cw =>
      obtain ⟨i, hd, hallowed⟩ := behavedMove_issue_iff.mp hmove
      obtain ⟨t, ht⟩ := (allowedCommandsComplete i (s.setMoves rest)).mpr hallowed
      obtain ⟨-, hhost⟩ := exec_next_mem_host ht
      refine ⟨t.reply .ok, by rw [step_command hm hd, ht, conclude_next], 1, Nat.le_refl 1, ?_⟩
      rw [State.reply_host_replies, hhost, State.setMoves_host_replies]
      rfl

/-- The host's later moves keep to the spec as before: a step takes a move off the list and keeps MEM_LEN. -/
theorem behaved_of_step {s t : State} (h : s.behaved = true) (hstep : step s = .next t) : t.behaved = true := by
  obtain ⟨hmoves, -⟩ := stepsTakeTheMovesInOrder s t hstep
  rw [State.behaved, hmoves, noStepChangesMemoryLength s t hstep, List.all_eq_true]
  exact fun m hm => List.all_eq_true.mp h m (List.mem_of_mem_tail hm)

/-- A run under a behaved host answers a state, with status Ok for each command in it, by induction over its steps. -/
theorem run_of_behaved {s : State} (h : s.behaved = true) (k : Nat) :
    ∃ t, Host.Core.run core k s = .next t ∧ OnlyOkReplies k s t := by
  induction k generalizing s with
  | zero => exact ⟨s, rfl, onlyOkReplies_of_replies_eq rfl⟩
  | succ k ih =>
    obtain ⟨t, hstep, hfirst⟩ := step_of_behaved h
    obtain ⟨u, hrun, hrest⟩ := ih (behaved_of_step h hstep)
    exact ⟨u, (run_succ_of_step hstep k).trans hrun, hfirst.trans hrest⟩

/-- Settles O50: the run of a behaved host answers one state, and the statuses handed over on the way to it are Ok. -/
theorem wellBehavedHostNeverStops : Obligations.WellBehavedHostNeverStops := by
  intro s h k
  obtain ⟨t, hrun, hreplies⟩ := run_of_behaved h k
  refine ⟨⟨t, hrun⟩, fun t' hrun' => ?_⟩
  obtain rfl : t = t' := Host.Outcome.next.inj (hrun.symm.trans hrun')
  exact hreplies

end Sys2Proof.Hazards
end

section
/-! The decoder vectors (95_test_vectors.md section 4). An accepted word is the command's own word, but for the one whose
operand field the decoder ignores; a refused word fails the reserved-bits check or, after it, a check of its format. -/

namespace Sys2Proof.DecoderVectors

open Sys2Proof.Encoding Sys2Proof.Alu

/-- The word of a well-formed command decodes to that command (30_encoding.md R57, R65). -/
theorem decode_of_encode_eq {i : Instr} {cw : CommandWord} (hencode : encode i = cw) (hwf : i.wellFormed = true) :
    decode cw = .ok i :=
  hencode ▸ decodeOfEncodeIsTheCommand i hwf

/-- `rsv` is looked at first and refuses alone (30_encoding.md R62 item 1). -/
theorem decode_of_cwRsv_ne_zero {cw : CommandWord} (hrsv : cwRsv cw ≠ 0) : decode cw = .error .reservedBits :=
  if_pos hrsv

/-- Settles O10: the accepted words are encoded commands, or accumulator mode with any operand field; the refused words
are closed evaluations of the decoder's checks. -/
theorem decoderVectorsOfTheSpec : Obligations.DecoderVectorsOfTheSpec := by
  refine ⟨?adcImm, ?adcImmLargest, ?literal, ?adcAbs, ?adcZp, ?adcAcc, ?rsv1, ?rsv2, ?rsv3, ?aslAcc, ?aslAccOperand,
    ?bne, ?modeB, ?bitAbs, ?cmp, ?modeA, ?cpx, ?clc, ?clrfZero, ?selectorSeven, ?selectorHighBits, ?modeF⟩
  case adcImm | adcImmLargest | adcAbs | adcZp | adcAcc | aslAcc | bne | bitAbs | cmp | cpx | clc | clrfZero =>
    exact decode_of_encode_eq rfl rfl
  case aslAccOperand => exact decode_accumulator_word (op := 2#4) rfl (opr := 0xFFFF) (by decide)
  case rsv1 | rsv2 | rsv3 => exact decode_of_cwRsv_ne_zero (by decide)
  case literal | modeB | modeA | modeF | selectorSeven | selectorHighBits => rfl

end Sys2Proof.DecoderVectors
end
